-- ==== Sys2Proof/Word.lean ====
section
/-! DEFINITION. Word.lean: the word types of the engine (R7, R9 of 00_scope.md) and the two plain records that the
syntax and the state are made of. Bit 0 is the least significant bit of every word (R9). -/

namespace Sys2Proof

/-- `u32`: every state word, key, command word and response word (R7 WORD_W, R9). -/
abbrev Word := BitVec 32
/-- One byte: of a domain tag, of the digest message, of the digest, or a header's OPC or ERR field. -/
abbrev Byte := BitVec 8
/-- A 64-bit pattern: the operands `n`, `lo`, `hi`, `low`, `high` (ARG_W) and the counter `ctr` (CTR_W). -/
abbrev Dword := BitVec 64
/-- A 128-bit pattern: the seed operand (SEED_W). -/
abbrev Qword := BitVec 128
/-- A binary64 datum, held as its `bits64` interchange pattern (R13). -/
abbrev F64 := BitVec 64
/-- A binary32 datum, held as its `bits32` interchange pattern (R13). -/
abbrev F32 := BitVec 32

/-- Eight like things in index order 0..7 (NWORDS): "a fixed-size array or record of 8 … fields" (R30). -/
structure Oct (α : Type) where
  x0 : α
  x1 : α
  x2 : α
  x3 : α
  x4 : α
  x5 : α
  x6 : α
  x7 : α
deriving DecidableEq, Repr, Inhabited

/-- The three zeta operands of PINIT (R101, R140). -/
structure Zetas where
  z0 : F64
  z1 : F64
  z2 : F64
deriving DecidableEq, Repr, Inhabited

end Sys2Proof
end

