-- ==== Sys2Proof/Config.lean ====
section
/-! DEFINITION. Config.lean: the configuration record `CFG` (R7 of 00_scope.md): the seven OPEN parameters, which the
source says are fixed and does not print (U1 to U6 of 93_implementation_defined.md). The machine runs under ONE
configuration, `Config.CFG`, an opaque constant without a body: nothing can be proved of its values, so what is proved of
the machine holds for every configuration. Log entry 2. -/

namespace Sys2Proof

/-- DLEN_MAX (R7): the longest domain tag in bytes. -/
def dlenMax : Nat := 65535

/-- A default domain tag: a byte string of any length from 0 to DLEN_MAX, and no longer one (R7, U2). -/
structure DefaultTag where
  /-- Its length in bytes. -/
  len : Fin (dlenMax + 1)
  /-- Its bytes in order. -/
  bytes : Vector Byte len.val
deriving Inhabited

/-- The tag as the byte string that the hash and the digest message take. -/
def DefaultTag.toList (t : DefaultTag) : List Byte := t.bytes.toList

/-- The OPEN parameters, one field each (second table of R7). Each function is total and depends on its arguments
alone, because it is a Lean function; nothing more is assumed (U1 to U6). -/
structure Cfg where
  /-- KEYBASE[0..7], the same for both units (R146, R175; U1). -/
  keyBase : Oct Word
  /-- DOMAIN_DEFAULT_P, the tag PINIT uses when DD = 1 (R103; U2). -/
  domainP : DefaultTag
  /-- DOMAIN_DEFAULT_C, the tag CINIT uses when DD = 1 (R103; U2). -/
  domainC : DefaultTag
  /-- FINAL, the hash finalizer (R143; U3). -/
  final : Word → Word → Word × Word
  /-- ZAFF, the four further affine combinations of the zetas (R147; U4). -/
  zaff : Zetas → F64 × F64 × F64 × F64
  /-- DIGEST512, a function from byte strings to 64 bytes (R173; U5). -/
  digest512 : List Byte → Vector Byte 64
  /-- NUM.bm32, the Box-Muller numerics on binary32 patterns (R263; U6). -/
  bm32 : F32 → F32 → F32
deriving Inhabited

/-- The configuration the engine is instantiated with. It is not state: no command and no reset changes it (R341, R343).
FREE VALUE, log entry 2. -/
opaque Config.CFG : Cfg

end Sys2Proof
end

