-- ==== Sys2Proof/Syntax.lean ====
section
/-! DEFINITION. Syntax.lean: the 12 commands of RGE256-CMD v1 (R104 of 30_encoding.md), one constructor per row of
spec/opcode_table.json, with their operands as the operand words carry them (R101, R102). An operand that a default flag
(DR, DZ, DS, DD) leaves out is `none`: the flag is part of the command, so `some` of the default value and `none` are two
encodings (R103). -/

namespace Sys2Proof

inductive Instr where
  /-- 0x10, format I (R140): `seed` i128, `rounds` (none: DR = 1), `zetas` (none: DZ = 1), `tag` (none: DD = 1). -/
  | pinit (seed : Qword) (rounds : Option Word) (zetas : Option Zetas) (tag : Option (List Byte))
  /-- 0x11, format Z (R199). -/
  | pnext32
  /-- 0x12, format Z (R252). -/
  | pnextf
  /-- 0x13, format R (R254): `lo`, `hi` i64. -/
  | prange (lo hi : Dword)
  /-- 0x14, format N (R256): `n` i64. -/
  | pbatch (n : Dword)
  /-- 0x1F, format Z (R152). -/
  | pdrop
  /-- 0x20, format I (R170): `seed` (none: DS = 1), `rounds` (none: DR = 1), `tag` (none: DD = 1). -/
  | cinit (seed : Option Qword) (rounds : Option Word) (tag : Option (List Byte))
  /-- 0x21, format N (R231): `n` i64. -/
  | cwords (n : Dword)
  /-- 0x22, format N (R258): `n` i64. -/
  | cunif (n : Dword)
  /-- 0x23, format RN (R260): `low`, `high`, `n` i64. -/
  | crandi (low high n : Dword)
  /-- 0x24, format N (R262): `n` i64. -/
  | crandn (n : Dword)
  /-- 0x2F, format Z (R178). -/
  | cdrop
deriving DecidableEq, Repr

end Sys2Proof
end

