-- ==== Sys2Proof/WellFormed.lean ====
section
/-! DEFINITION. WellFormed.lean: which terms of `Instr` a command can carry. Every operand but the tag is a bit pattern
of its operand's own width; the tag's length is the 16-bit field DLEN (R100 of 30_encoding.md, DLEN_MAX of R7). -/

namespace Sys2Proof

/-- A tag operand fits DLEN; the default tag (DD = 1) carries no bytes. -/
def tagFits : Option (List Byte) → Bool
  | none => true
  | some t => decide (t.length ≤ dlenMax)

/-- The command can be encoded (R100 to R102). -/
def Instr.wellFormed : Instr → Bool
  | .pinit _ _ _ tag => tagFits tag
  | .cinit _ _ tag => tagFits tag
  | .pnext32 => true
  | .pnextf => true
  | .prange _ _ => true
  | .pbatch _ => true
  | .pdrop => true
  | .cwords _ => true
  | .cunif _ => true
  | .crandi _ _ _ => true
  | .crandn _ => true
  | .cdrop => true

end Sys2Proof
end

