-- ==== Sys2Proof/Decode.lean ====
section
/-! DEFINITION. Decode.lean: the encoding of RGE256-CMD v1 (30_encoding.md, 20_memory.md section 2): header fields, the
opcode map, the length rule, operand assembly, the decoder (total on any word stream) and after it the encoder. -/

namespace Sys2Proof

/-! ## Opcode map (R104) -/

/-- The 12 values of OPC that name a command. -/
inductive Opcode where
  | pinit | pnext32 | pnextf | prange | pbatch | pdrop
  | cinit | cwords | cunif | crandi | crandn | cdrop
deriving DecidableEq, Repr

/-- The five operand formats (R101). -/
inductive Format where
  | Z | N | R | RN | I
deriving DecidableEq, Repr

/-- The OPC byte (R104). -/
def Opcode.byte : Opcode → Byte
  | .pinit => 0x10#8
  | .pnext32 => 0x11#8
  | .pnextf => 0x12#8
  | .prange => 0x13#8
  | .pbatch => 0x14#8
  | .pdrop => 0x1F#8
  | .cinit => 0x20#8
  | .cwords => 0x21#8
  | .cunif => 0x22#8
  | .crandi => 0x23#8
  | .crandn => 0x24#8
  | .cdrop => 0x2F#8

/-- The format column of R104. -/
def Opcode.format : Opcode → Format
  | .pinit => .I
  | .pnext32 => .Z
  | .pnextf => .Z
  | .prange => .R
  | .pbatch => .N
  | .pdrop => .Z
  | .cinit => .I
  | .cwords => .N
  | .cunif => .N
  | .crandi => .RN
  | .crandn => .N
  | .cdrop => .Z

def Opcode.all : List Opcode :=
  [.pinit, .pnext32, .pnextf, .prange, .pbatch, .pdrop, .cinit, .cwords, .cunif, .crandi, .crandn, .cdrop]

/-- "the decoder matches the whole OPC byte" (R104). -/
def opcodeOf (b : Byte) : Option Opcode := Opcode.all.find? (fun o => o.byte == b)

/-! ## Header fields (R100) -/

def hdrOpc (h : Word) : Byte := h.extractLsb' 24 8
def hdrDD (h : Word) : Bool := h.getLsbD 23
def hdrDR (h : Word) : Bool := h.getLsbD 22
def hdrDZ (h : Word) : Bool := h.getLsbD 21
def hdrDS (h : Word) : Bool := h.getLsbD 20
def hdrRsv (h : Word) : BitVec 4 := h.extractLsb' 16 4
def hdrDlen (h : Word) : Nat := (h.extractLsb' 0 16).toNat
/-- Bits [23:0], all zero outside the INIT formats (R100). -/
def hdrLow (h : Word) : BitVec 24 := h.extractLsb' 0 24

/-! ## Illegal encodings (R111, R112) -/

/-- Why a command is illegal: the cases (a) to (f) of R111, in its order, and R112. The engine's answer is the same for
all of them (IllegalCommand, R305); only `tagPadding` consumes more than the header. -/
inductive Illegal where
  | unknownOpcode | lowBitsSet | reservedBitsSet | pinitDefaultSeed | cinitDefaultZetas | defaultTagWithLength
  | tagPadding
deriving DecidableEq, Repr

/-- R111 for an INIT header. -/
def initHeaderIllegal (o : Opcode) (h : Word) : Option Illegal :=
  if hdrRsv h ≠ 0#4 then some .reservedBitsSet
  else if o = .pinit ∧ hdrDS h = true then some .pinitDefaultSeed
  else if o = .cinit ∧ hdrDZ h = true then some .cinitDefaultZetas
  else if hdrDD h = true ∧ hdrDlen h ≠ 0 then some .defaultTagWithLength
  else none

/-- R111: the header is illegal, and why; `.ok o` when it is a legal header of opcode `o`. -/
def checkHeader (h : Word) : Except Illegal Opcode :=
  match opcodeOf (hdrOpc h) with
  | none => .error .unknownOpcode
  | some o =>
    if o.format = .I then
      match initHeaderIllegal o h with
      | some why => .error why
      | none => .ok o
    else if hdrLow h ≠ 0#24 then .error .lowBitsSet
    else .ok o

/-! ## Length (R105) -/

/-- `ceil(n / 4)`: the words that n tag bytes take (R78). -/
def tagWordCount (n : Nat) : Nat := (n + 3) / 4

/-- `len(H)` of a legal header (R105). -/
def legalLen (o : Opcode) (h : Word) : Nat :=
  let rounds := if hdrDR h then 0 else 1
  let zetas := if hdrDZ h then 0 else 6
  let seed := if hdrDS h then 0 else 4
  let tag := if hdrDD h then 0 else tagWordCount (hdrDlen h)
  match o.format with
  | .Z => 1
  | .N => 3
  | .R => 5
  | .RN => 7
  | .I => if o = .pinit then 1 + 4 + rounds + zetas + tag else 1 + seed + rounds + tag

/-- `len(H)`: "a function of its header word H alone" (R105); an illegal header is a command of length 1 (R111). -/
def cmdLen (h : Word) : Nat :=
  match checkHeader h with
  | .ok o => legalLen o h
  | .error _ => 1

/-! ## Operand assembly (R77, R78, R102) -/

/-- Operand word `i` of a cut command; the cut (R105) makes `i` in range wherever it is used. -/
def wordAt (ops : List Word) (i : Nat) : Word := ops.getD i 0#32

/-- A 64-bit value from two words, most significant first (R77). -/
def dwordAt (ops : List Word) (i : Nat) : Dword := wordAt ops i ++ wordAt ops (i + 1)

/-- A 128-bit value from four words, most significant first (R77). -/
def qwordAt (ops : List Word) (i : Nat) : Qword :=
  wordAt ops i ++ wordAt ops (i + 1) ++ wordAt ops (i + 2) ++ wordAt ops (i + 3)

/-- The four bytes of a word, most significant first (R78). -/
def wordBytes (w : Word) : List Byte :=
  [w.extractLsb' 24 8, w.extractLsb' 16 8, w.extractLsb' 8 8, w.extractLsb' 0 8]

/-- The tag operand: absent when DD = 1; else the first DLEN bytes of the tag words (R102), refused when a pad byte is
not zero (R112). -/
def readTag (h : Word) (ws : List Word) : Except Illegal (Option (List Byte)) :=
  if hdrDD h then .ok none
  else
    let bytes := ws.flatMap wordBytes
    if (bytes.drop (hdrDlen h)).all (fun b => b == 0#8) then .ok (some (bytes.take (hdrDlen h)))
    else .error .tagPadding

/-- PINIT's operands in R101's order: seed, rounds, zetas, tag. -/
def readPinit (h : Word) (ops : List Word) : Except Illegal Instr :=
  let zetasAt := if hdrDR h then 4 else 5
  let tagAt := if hdrDZ h then zetasAt else zetasAt + 6
  match readTag h (ops.drop tagAt) with
  | .error why => .error why
  | .ok tag =>
    .ok (.pinit (qwordAt ops 0)
      (if hdrDR h then none else some (wordAt ops 4))
      (if hdrDZ h then none
       else some ⟨dwordAt ops zetasAt, dwordAt ops (zetasAt + 2), dwordAt ops (zetasAt + 4)⟩)
      tag)

/-- CINIT's operands in R101's order: seed, rounds, tag. -/
def readCinit (h : Word) (ops : List Word) : Except Illegal Instr :=
  let roundsAt := if hdrDS h then 0 else 4
  let tagAt := if hdrDR h then roundsAt else roundsAt + 1
  match readTag h (ops.drop tagAt) with
  | .error why => .error why
  | .ok tag =>
    .ok (.cinit (if hdrDS h then none else some (qwordAt ops 0))
      (if hdrDR h then none else some (wordAt ops roundsAt))
      tag)

/-- The command of a legal header `h` with opcode `o` and its operand words. -/
def readOperands (o : Opcode) (h : Word) (ops : List Word) : Except Illegal Instr :=
  match o with
  | .pinit => readPinit h ops
  | .pnext32 => .ok .pnext32
  | .pnextf => .ok .pnextf
  | .prange => .ok (.prange (dwordAt ops 0) (dwordAt ops 2))
  | .pbatch => .ok (.pbatch (dwordAt ops 0))
  | .pdrop => .ok .pdrop
  | .cinit => readCinit h ops
  | .cwords => .ok (.cwords (dwordAt ops 0))
  | .cunif => .ok (.cunif (dwordAt ops 0))
  | .crandi => .ok (.crandi (dwordAt ops 0) (dwordAt ops 2) (dwordAt ops 4))
  | .crandn => .ok (.crandn (dwordAt ops 0))
  | .cdrop => .ok .cdrop

/-! ## The decoder -/

/-- What stands at the head of a word stream. -/
inductive Decoded where
  /-- Fewer words than the header calls for: the engine waits (R86). -/
  | incomplete
  /-- An illegal command whose header has OPC byte `opc`; `rest` is the stream after the words it takes
  (R111: one; R112: all of them). -/
  | illegal (opc : Byte) (why : Illegal) (rest : List Word)
  /-- A command, and the stream after it. -/
  | command (i : Instr) (rest : List Word)
deriving DecidableEq, Repr

/-- Read one command from the head of a stream: cut it by `cmdLen` (R105), then read its operands. -/
def decode : List Word → Decoded
  | [] => .incomplete
  | h :: tail =>
    let nOps := cmdLen h - 1
    if tail.length < nOps then .incomplete
    else
      match checkHeader h with
      | .error why => .illegal (hdrOpc h) why tail
      | .ok o =>
        match readOperands o h (tail.take nOps) with
        | .error why => .illegal (hdrOpc h) why (tail.drop nOps)
        | .ok i => .command i (tail.drop nOps)

/-! ## The encoder -/

/-- A header word from its fields (R100); RSV is 0. -/
def mkHeader (o : Opcode) (dd dr dz ds : Bool) (dlen : Nat) : Word :=
  o.byte ++ BitVec.ofBool dd ++ BitVec.ofBool dr ++ BitVec.ofBool dz ++ BitVec.ofBool ds ++ 0#4 ++ BitVec.ofNat 16 dlen

/-- The header of a command outside the INIT formats: bits [23:0] are 0 (R100). -/
def plainHeader (o : Opcode) : Word := o.byte ++ 0#24

/-- A 64-bit value as two words, most significant first (R77). -/
def dwordWords (d : Dword) : List Word := [d.extractLsb' 32 32, d.extractLsb' 0 32]

/-- A 128-bit value as four words, most significant first (R77). -/
def qwordWords (q : Qword) : List Word :=
  [q.extractLsb' 96 32, q.extractLsb' 64 32, q.extractLsb' 32 32, q.extractLsb' 0 32]

/-- Tag bytes packed most significant byte first, the last word padded with zero bytes (R78). -/
def packTag : List Byte → List Word
  | [] => []
  | [a] => [a ++ 0#8 ++ 0#8 ++ 0#8]
  | [a, b] => [a ++ b ++ 0#8 ++ 0#8]
  | [a, b, c] => [a ++ b ++ c ++ 0#8]
  | a :: b :: c :: d :: t => (a ++ b ++ c ++ d) :: packTag t

/-- The length field of a tag operand: 0 for the default tag (R111 (f)). -/
def tagLen : Option (List Byte) → Nat
  | none => 0
  | some t => t.length

def optWords {α : Type} (f : α → List Word) : Option α → List Word
  | none => []
  | some a => f a

def zetasWords (z : Zetas) : List Word := dwordWords z.z0 ++ dwordWords z.z1 ++ dwordWords z.z2

/-- The words of a command (R100 to R103). -/
def encode : Instr → List Word
  | .pinit seed rounds zetas tag =>
    mkHeader .pinit tag.isNone rounds.isNone zetas.isNone false (tagLen tag)
      :: (qwordWords seed ++ (optWords (fun w => [w]) rounds ++ (optWords zetasWords zetas ++ optWords packTag tag)))
  | .pnext32 => [plainHeader .pnext32]
  | .pnextf => [plainHeader .pnextf]
  | .prange lo hi => plainHeader .prange :: (dwordWords lo ++ dwordWords hi)
  | .pbatch n => plainHeader .pbatch :: dwordWords n
  | .pdrop => [plainHeader .pdrop]
  | .cinit seed rounds tag =>
    mkHeader .cinit tag.isNone rounds.isNone false seed.isNone (tagLen tag)
      :: (optWords qwordWords seed ++ (optWords (fun w => [w]) rounds ++ optWords packTag tag))
  | .cwords n => plainHeader .cwords :: dwordWords n
  | .cunif n => plainHeader .cunif :: dwordWords n
  | .crandi low high n => plainHeader .crandi :: (dwordWords low ++ dwordWords high ++ dwordWords n)
  | .crandn n => plainHeader .crandn :: dwordWords n
  | .cdrop => [plainHeader .cdrop]

/-- The opcode of a command (R104). -/
def Instr.opcode : Instr → Opcode
  | .pinit _ _ _ _ => .pinit
  | .pnext32 => .pnext32
  | .pnextf => .pnextf
  | .prange _ _ => .prange
  | .pbatch _ => .pbatch
  | .pdrop => .pdrop
  | .cinit _ _ _ => .cinit
  | .cwords _ => .cwords
  | .cunif _ => .cunif
  | .crandi _ _ _ => .crandi
  | .crandn _ => .crandn
  | .cdrop => .cdrop

/-! ## The host's table words -/

/-- The command words of a table word `w` of `nbits` bits: word `i` is bits 32i+31..32i of it, and every bit above
`nbits` is 0; as many words as the header calls for (R105). -/
def tableWords (nbits w : Nat) : List Word :=
  let v := w % 2 ^ nbits
  let h := BitVec.ofNat 32 v
  h :: (List.range (cmdLen h - 1)).map (fun i => BitVec.ofNat 32 (v >>> (32 * (i + 1))))

def decodeTableWord (nbits w : Nat) : Option Instr :=
  match decode (tableWords nbits w) with
  | .command i _ => some i
  | .illegal _ _ _ => none
  | .incomplete => none

end Sys2Proof
end

