-- ==== Sys2Proof/Machine/Operands.lean ====
section
/-! DEFINITION. Machine/Operands.lean: operands as the rules read them (R102, R103 of 30_encoding.md; R12 of 00_scope.md):
the defaults that the header flags select, and the byte forms of the seed (R73 of 20_memory.md, R142 of
40_seed_expansion_p.md). An i64 or i128 operand is read by `BitVec.toInt`, which is `sext_64` and `sext_128`. -/

namespace Sys2Proof.Machine

/-- P_ROUNDS_DEFAULT (R7, R103). -/
def pRoundsDefault : Word := 3#32
/-- C_ROUNDS_DEFAULT (R7, R103). -/
def cRoundsDefault : Word := 6#32
/-- C_SEED_DEFAULT (R7, R103). -/
def cSeedDefault : Qword := 42#128
/-- ZETA_DEFAULT: the binary64 values nearest to 1.585, 1.926, 1.262 (R103). -/
def zetasDefault : Zetas := ⟨0x3FF95C28F5C28F5C#64, 0x3FFED0E560418937#64, 0x3FF43126E978D4FE#64⟩

/-- An optional operand with the default its flag selects (R103). -/
def orDefault {α : Type} (dflt : α) : Option α → α
  | none => dflt
  | some a => a

/-- A count operand that has passed the check `0 ≤ n`. -/
def countOf (n : Dword) : Nat := n.toInt.toNat

/-- The 64-bit two's-complement pattern `tc_64` of an integer (R12). -/
def tc64 (v : Int) : Dword := BitVec.ofInt 64 v

/-- One decimal digit as its ASCII code point (R142). -/
def digitByte (d : Nat) : Byte := BitVec.ofNat 8 (0x30 + d)

/-- The digits of `n`, most significant first, no leading zero, `0` for zero; the first argument bounds the recursion
and any value above the number of digits gives the same. -/
def decDigits : Nat → Nat → List Byte
  | 0, _ => []
  | fuel + 1, n => if n < 10 then [digitByte n] else decDigits fuel (n / 10) ++ [digitByte (n % 10)]

/-- `dec(n)`: the decimal numeral in ASCII, with `-` for a negative number (R142). -/
def decNumeral (n : Int) : List Byte :=
  if n < 0 then 0x2D#8 :: decDigits (n.natAbs + 1) n.natAbs else decDigits (n.natAbs + 1) n.natAbs

/-- The hash input `S = dec(seed) ++ tag` (R142); each byte is one character (R76 for the order). -/
def hashInput (seed : Int) (tag : List Byte) : List Byte := decNumeral seed ++ tag

/-- `be8`: the 8 bytes of a 64-bit pattern, most significant first (R73). -/
def be8 (v : Dword) : List Byte :=
  [v.extractLsb' 56 8, v.extractLsb' 48 8, v.extractLsb' 40 8, v.extractLsb' 32 8,
   v.extractLsb' 24 8, v.extractLsb' 16 8, v.extractLsb' 8 8, v.extractLsb' 0 8]

/-- The digest message `tag ++ be8(seed)` (R76, R173). -/
def digestMsg (seed : Int) (tag : List Byte) : List Byte := tag ++ be8 (tc64 seed)

/-- The seed range of the C-unit, both ends included (R171). -/
def seedFits64 (seed : Int) : Bool := decide (-(2 ^ 63) ≤ seed ∧ seed ≤ 2 ^ 63 - 1)

end Sys2Proof.Machine
end

