-- ==== Sys2Proof/Machine/Arith.lean ====
section
/-! DEFINITION. Machine/Arith.lean: the primitives on u32 (R10 of 00_scope.md) and the maps over eight words. `add32`,
`mul32` and `xor32` are `+`, `*` and `^^^` of `BitVec 32`: all arithmetic is modulo 2^32. -/

namespace Sys2Proof.Machine

/-- `rotl32` (R10): the amount is reduced modulo 32 first; a reduced amount of 0 leaves the word alone. -/
def rotl32 (a : Word) (n : Nat) : Word :=
  let m := n % 32
  if m = 0 then a else (a <<< m) ||| (a >>> (32 - m))

/-- `lo32` (R12). -/
def lo32 (v : Dword) : Word := v.extractLsb' 0 32

/-- `hi32` (R12). -/
def hi32 (v : Dword) : Word := v.extractLsb' 32 32

/-- Eight values from their index. -/
def octOf {α : Type} (f : Nat → α) : Oct α := ⟨f 0, f 1, f 2, f 3, f 4, f 5, f 6, f 7⟩

/-- The eight values in index order. -/
def octList {α : Type} (o : Oct α) : List α := [o.x0, o.x1, o.x2, o.x3, o.x4, o.x5, o.x6, o.x7]

/-- Word by word exclusive or. -/
def octXor (a b : Oct Word) : Oct Word :=
  ⟨a.x0 ^^^ b.x0, a.x1 ^^^ b.x1, a.x2 ^^^ b.x2, a.x3 ^^^ b.x3,
   a.x4 ^^^ b.x4, a.x5 ^^^ b.x5, a.x6 ^^^ b.x6, a.x7 ^^^ b.x7⟩

end Sys2Proof.Machine
end

