-- ==== Sys2Proof/Machine/Flags.lean ====
section
/-! DEFINITION. Machine/Flags.lean: the engine has NO flags (R47 of 10_state.md: "The outcome of a command is carried
entirely by its response"). This file holds what stands in their place: the error codes of the ERR field (R300 of
60_exceptions.md) and the response header (R120 of 30_encoding.md). -/

namespace Sys2Proof.Machine

/-- The five errors (R300 to R305). -/
inductive ErrCode where
  | encodingError | domainError | validationError | notReady | illegalCommand
deriving DecidableEq, Repr

/-- The ERR values (R300); 0 is success and 6 to 255 are never produced. -/
def ErrCode.code : ErrCode → Byte
  | .encodingError => 1#8
  | .domainError => 2#8
  | .validationError => 3#8
  | .notReady => 4#8
  | .illegalCommand => 5#8

/-- The response header: OPC in [31:24], ERR in [23:16], zero below (R120). -/
def rspHeader (opc err : Byte) : Word := opc ++ err ++ 0#16

end Sys2Proof.Machine
end

