-- ==== Sys2Proof/Machine/State.lean ====
section
/-! DEFINITION. Machine/State.lean: the architectural state (10_state.md) as plain data, the stops, and reset. The state is
the two generator units and the two word streams (R30 to R45); there is no program counter, no flag and no memory
(R46 to R48, R70). -/

namespace Sys2Proof.Machine

/-- What the P-unit holds once constructed (R30 to R33, R35): nothing else is retained. -/
structure PermState where
  /-- `s[0..7]`, the permutation state (R30). -/
  s : Oct Word
  /-- `k[0..7]`, the round keys (R31). -/
  k : Oct Word
  /-- `r[0..7]`, the rotation schedule, 5 bits each (R32). -/
  r : Oct (BitVec 5)
  /-- `p_rounds`, steps per advance (R33). -/
  rounds : Word
deriving DecidableEq, Repr

/-- What the C-unit holds once constructed (R36 to R39, R42): no output buffer and no read position. -/
structure CtrState where
  /-- `key[0..7]` (R36). -/
  key : Oct Word
  /-- `kmix[0..7]` (R37). -/
  kmix : Oct Word
  /-- `ctr`, the block counter (R38). -/
  ctr : Dword
  /-- `c_rounds`, rounds per block (R39). -/
  rounds : Word
deriving DecidableEq, Repr

/-- The engine. A unit is `none` while it is Unconstructed: the spec's own variant, in which `s`, `k`, `r`, … "hold no
value" and "a model must not give them a default" (R44, R49, U7). Log entry 1. -/
structure State where
  /-- The P-unit; `p_ready` (R34) is whether it is there. -/
  pUnit : Option PermState
  /-- The C-unit; `c_ready` (R42) is whether it is there. -/
  cUnit : Option CtrState
  /-- `CMD`, head first (R45). -/
  cmd : List Word
  /-- `RSP`, oldest word first (R45). -/
  rsp : List Word
deriving DecidableEq, Repr

/-- `p_ready` (R34). -/
def State.pReady (s : State) : Bool := s.pUnit.isSome

/-- `c_ready` (R42). -/
def State.cReady (s : State) : Bool := s.cUnit.isSome

/-- R49, R340: both units Unconstructed, both streams empty. -/
def State.reset : State := { pUnit := none, cUnit := none, cmd := [], rsp := [] }

/-- Why a step of the machine stops. -/
inductive Fault where
  /-- `CMD` holds no complete command at its head: "otherwise there is no step" (R86), "stuck: the engine takes no step
  until the missing words arrive" (U16). Raised by `step` only; not an error of the engine, and no command raises it.
  SAFE: the engine does nothing at all here, and the host's appending words lets it go on. Log entry 3. -/
  | awaitingCommand
deriving DecidableEq, Repr

/-- Why the model declines. -/
inductive Refusal where
  /-- The instruction has no meaning in the model. Raised by nothing: every command has its meaning (R309). SAFE. -/
  | notModelled (mnemonic : String)
deriving DecidableEq, Repr

end Sys2Proof.Machine
end

