-- ==== Sys2Proof/Machine/Ops.lean ====
section
/-! DEFINITION. Machine/Ops.lean: the named operations over the state that every command shares: answering, and error
entry (R306 of 60_exceptions.md). `step` removes a command's words from `CMD` before its meaning runs (R82). -/

namespace Sys2Proof.Machine

/-- A whole command's words leave `CMD`: the repeated `CmdPop` of R11 and R72, done at once because a command is atomic
(R82); `rest` is the stream after them. -/
def popCommand (rest : List Word) (s : State) : State := { s with cmd := rest }

/-- `RspPush`, for a list of words in order (R72). -/
def pushRsp (ws : List Word) (s : State) : State := { s with rsp := s.rsp ++ ws }

/-- The response of a command that succeeded: a header with ERR 0, then the payload (R120, R121). -/
def respond (o : Opcode) (payload : List Word) (s : State) : State := pushRsp (rspHeader o.byte 0#8 :: payload) s

/-- ERROR ENTRY, the engine's one form of exception (R306): no field of either unit changes, and exactly one word
`OPC * 2^24 + ERR * 2^16` is appended to `RSP`; nothing else is recorded (R307). The command's words are already gone
from `CMD`. The OPC byte is echoed as received, also when it names no command (R120).
THE RETURN beside it: "There is no handler, so no return instruction and nothing to restore" (R310); the engine goes on
to the next command, so no operation stands here. -/
def raiseError (opc : Byte) (e : ErrCode) (s : State) : State := pushRsp [rspHeader opc e.code] s

/-- `raise E` in the meaning of the command `o` (R11). -/
def fail (o : Opcode) (e : ErrCode) (s : State) : State := raiseError o.byte e s

/-- Install a P-unit: all its fields are written together. -/
def setP (u : PermState) (s : State) : State := { s with pUnit := some u }

/-- Install a C-unit: all its fields are written together (R176). -/
def setC (u : CtrState) (s : State) : State := { s with cUnit := some u }

/-- `p_ready <- 0`: the P-unit is Unconstructed and its fields hold no value (R152, R44). -/
def dropP (s : State) : State := { s with pUnit := none }

/-- `c_ready <- 0` (R178, R44). -/
def dropC (s : State) : State := { s with cUnit := none }

end Sys2Proof.Machine
end

