-- ==== Sys2Proof/Machine/Permutation.lean ====
section
/-! DEFINITION. Machine/Permutation.lean: the P-unit's state transition (42_permutation_step.md): quad, cross coupling,
global fold, step, advance, and the command PNEXT32. Assignments are sequential, each reading what the ones before it
wrote (D19). -/

namespace Sys2Proof.Machine

/-- `derived(a,b)` (R191): the sum is a plain integer, and a residue of 0 is replaced by 1. -/
def derived (a b : BitVec 5) : Nat :=
  let v := (a.toNat + b.toNat) % 31
  if v = 0 then 1 else v

/-- The four words of a quad. -/
structure Quad where
  w0 : Word
  w1 : Word
  w2 : Word
  w3 : Word
deriving DecidableEq, Repr

/-- `quad` (R192) on the four words, keys and rotation amounts of one quad, assignment by assignment. -/
def quad (s : Quad) (k0 k1 k2 k3 : Word) (r0 r1 r2 r3 : BitVec 5) : Quad :=
  let s0 := s.w0 + (s.w1 + k0)
  let s1 := rotl32 (s.w1 ^^^ s0) r0.toNat
  let s2 := s.w2 + (s.w3 + k1)
  let s3 := rotl32 (s.w3 ^^^ s2) r1.toNat
  let t0 := s0 ^^^ s2
  let t1 := s1 ^^^ s3
  let s0' := s0 + (rotl32 t0 r2.toNat + k2)
  let s2' := s2 + (rotl32 t1 r3.toNat + k3)
  let s1' := s1 ^^^ rotl32 s0' (derived r0 r2)
  let s3' := s3 ^^^ rotl32 s2' (derived r1 r3)
  ⟨s0', s1', s2', s3'⟩

/-- Quad A: words, keys and rotations 0 to 3 (R192, o = 0). -/
def quadA (k : Oct Word) (r : Oct (BitVec 5)) (s : Oct Word) : Oct Word :=
  let q := quad ⟨s.x0, s.x1, s.x2, s.x3⟩ k.x0 k.x1 k.x2 k.x3 r.x0 r.x1 r.x2 r.x3
  { s with x0 := q.w0, x1 := q.w1, x2 := q.w2, x3 := q.w3 }

/-- Quad B: words, keys and rotations 4 to 7 (R192, o = 4). -/
def quadB (k : Oct Word) (r : Oct (BitVec 5)) (s : Oct Word) : Oct Word :=
  let q := quad ⟨s.x4, s.x5, s.x6, s.x7⟩ k.x4 k.x5 k.x6 k.x7 r.x4 r.x5 r.x6 r.x7
  { s with x4 := q.w0, x5 := q.w1, x6 := q.w2, x7 := q.w3 }

/-- Cross coupling (R193); the C-unit's round has the same four assignments (R224). -/
def cross (s : Oct Word) : Oct Word :=
  let s1 := s.x1 ^^^ rotl32 s.x5 13
  let s3 := s.x3 ^^^ rotl32 s.x7 7
  let s5 := s.x5 ^^^ rotl32 s1 11
  let s7 := s.x7 ^^^ rotl32 s3 17
  { s with x1 := s1, x3 := s3, x5 := s5, x7 := s7 }

/-- Global fold of the P-unit (R194): `m0..m3` are taken before any write. -/
def fold (s : Oct Word) : Oct Word :=
  let m0 := s.x0 ^^^ s.x4
  let m1 := s.x1 ^^^ s.x5
  let m2 := s.x2 ^^^ s.x6
  let m3 := s.x3 ^^^ s.x7
  let s0 := s.x0 + rotl32 m1 3
  let s1 := s.x1 + rotl32 m2 5
  let s2 := s.x2 + rotl32 m3 7
  let s3 := s.x3 + rotl32 m0 11
  ⟨s0, s1, s2, s3,
   s.x4 ^^^ rotl32 s0 19, s.x5 ^^^ rotl32 s1 23, s.x6 ^^^ rotl32 s2 29, s.x7 ^^^ rotl32 s3 31⟩

/-- One permutation step (R196). -/
def permStep (k : Oct Word) (r : Oct (BitVec 5)) (s : Oct Word) : Oct Word :=
  fold (cross (quadB k r (quadA k r s)))

/-- The output word (R198): reads `s[0]` and `s[4]`. -/
def extractWord (s : Oct Word) : Word := s.x0 ^^^ rotl32 s.x4 13

/-- The P-unit after one advance: `p_rounds` steps (R198). -/
def advanceState (u : PermState) : PermState := { u with s := (permStep u.k u.r)^[u.rounds.toNat] u.s }

/-- Advance (R198): the word, and the unit it leaves. -/
def advance (u : PermState) : Word × PermState :=
  let u' := advanceState u
  (extractWord u'.s, u')

/-- `n` advances in order: the words, first drawn first, and the unit they leave (R250, R256). -/
def draws : Nat → PermState → List Word × PermState
  | 0, u => ([], u)
  | n + 1, u =>
    let a := advance u
    let rest := draws n a.2
    (a.1 :: rest.1, rest.2)

/-- PNEXT32 (R199). -/
def pnext32 (s : State) : State :=
  match s.pUnit with
  | none => fail .pnext32 .notReady s
  | some u =>
    let a := advance u
    respond .pnext32 [a.1] (setP a.2 s)

def execPnext32 (s : State) : Host.Outcome State Fault Refusal := .next (pnext32 s)

end Sys2Proof.Machine
end

