-- ==== Sys2Proof/Machine/Block.lean ====
section
/-! DEFINITION. Machine/Block.lean: the C-unit's block function, requests, and the command CWORDS (43_block_function.md). -/

namespace Sys2Proof.Machine

/-- `R_C` (R40): a constant of the hardware; only the entries 0, 2, 4, 6 are ever read (R224). -/
def rotC : Oct Nat := ⟨13, 7, 11, 17, 19, 23, 29, 31⟩

/-- The four add-rotate-XOR pairs of a round, i = 0, 2, 4, 6 (R224). -/
def blockPairs (kmix b : Oct Word) : Oct Word :=
  let b0 := b.x0 + kmix.x0
  let b1 := b.x1 ^^^ rotl32 b0 rotC.x0
  let b2 := b.x2 + kmix.x2
  let b3 := b.x3 ^^^ rotl32 b2 rotC.x2
  let b4 := b.x4 + kmix.x4
  let b5 := b.x5 ^^^ rotl32 b4 rotC.x4
  let b6 := b.x6 + kmix.x6
  let b7 := b.x7 ^^^ rotl32 b6 rotC.x6
  ⟨b0, b1, b2, b3, b4, b5, b6, b7⟩

/-- The C-unit's cross coupling (R224): the same form and constants as the P-unit's (R193), a definition of its own. -/
def blockCross (b : Oct Word) : Oct Word :=
  let b1 := b.x1 ^^^ rotl32 b.x5 13
  let b3 := b.x3 ^^^ rotl32 b.x7 7
  let b5 := b.x5 ^^^ rotl32 b1 11
  let b7 := b.x7 ^^^ rotl32 b3 17
  { b with x1 := b1, x3 := b3, x5 := b5, x7 := b7 }

/-- The C-unit's global fold (R224): XOR only. -/
def blockFold (b : Oct Word) : Oct Word :=
  { b with
    x0 := b.x0 ^^^ rotl32 b.x4 13
    x1 := b.x1 ^^^ rotl32 b.x5 19
    x2 := b.x2 ^^^ rotl32 b.x6 7
    x3 := b.x3 ^^^ rotl32 b.x7 23 }

/-- One round (R224). -/
def blockRound (kmix b : Oct Word) : Oct Word := blockFold (blockCross (blockPairs kmix b))

/-- Load the key and add the counter's halves, low into word 0 and high into word 1 (R221, R222, R75). -/
def blockLoad (key : Oct Word) (ctr : Dword) : Oct Word :=
  { key with x0 := key.x0 + lo32 ctr, x1 := key.x1 + hi32 ctr }

/-- `blockfn(key, kmix, rounds, c)`, the pure block function (R228, R227). -/
def blockFn (key kmix : Oct Word) (rounds : Word) (ctr : Dword) : Oct Word :=
  (blockRound kmix)^[rounds.toNat] (blockLoad key ctr)

/-- `block()`: the block of the current counter, and the counter plus 1 modulo 2^64 (R226, R227). -/
def block (u : CtrState) : Oct Word × CtrState :=
  (blockFn u.key u.kmix u.rounds u.ctr, { u with ctr := u.ctr + 1#64 })

/-- `q` blocks in order, their words joined (R230). -/
def blocks : Nat → CtrState → List Word × CtrState
  | 0, u => ([], u)
  | q + 1, u =>
    let b := block u
    let rest := blocks q b.2
    (octList b.1 ++ rest.1, rest.2)

/-- `ceil(n / 8)`: the blocks a request of n words takes (R230). -/
def blockCount (n : Nat) : Nat := (n + 7) / 8

/-- `request(n)` (R230): the unused words of the last block are discarded (C2). -/
def request (n : Nat) (u : CtrState) : List Word × CtrState :=
  let b := blocks (blockCount n) u
  (b.1.take n, b.2)

/-- CWORDS (R231). -/
def cwords (n : Dword) (s : State) : State :=
  match s.cUnit with
  | none => fail .cwords .notReady s
  | some u =>
    if n.toInt < 0 then fail .cwords .validationError s
    else
      let l := request (countOf n) u
      respond .cwords l.1 (setC l.2 s)

def execCwords (n : Dword) (s : State) : Host.Outcome State Fault Refusal := .next (cwords n s)

end Sys2Proof.Machine
end

