-- ==== Sys2Proof/Machine/Output.lean ====
section
/-! DEFINITION. Machine/Output.lean: the output layer (44_output_distributions.md): the word-to-float and word-to-integer
maps, and the commands PNEXTF, PRANGE, PBATCH, CUNIF, CRANDI, CRANDN. A map from a word to an element reads the word and
nothing else (R250). -/

namespace Sys2Proof.Machine

/-! ## Maps from a word to an element -/

/-- `bits64(w / 2^32)` by R252's bit-level form: exact, no rounding. -/
def wordToF64 (w : Word) : F64 :=
  if w = 0#32 then 0#64
  else
    let p := Nat.log2 w.toNat
    BitVec.ofNat 64 ((991 + p) * 2 ^ 52 + (w.toNat - 2 ^ p) * 2 ^ (52 - p))

/-- `bits32(u32_to_f32(w))` by R257's bit-level form: truncated, never rounded up. -/
def wordToF32 (w : Word) : F32 :=
  if w = 0#32 then 0#32
  else
    let p := Nat.log2 w.toNat
    let frac := if 23 ≤ p then (w.toNat / 2 ^ (p - 23)) % 2 ^ 23 else (w.toNat * 2 ^ (23 - p)) % 2 ^ 23
    BitVec.ofNat 32 ((95 + p) * 2 ^ 23 + frac)

/-- PRANGE's value `lo + (w mod (hi - lo + 1))`, in unbounded integers (R254). -/
def rangeValue (lo hi : Int) (w : Word) : Int := lo + (w.toNat : Int) % (hi - lo + 1)

/-- CRANDI's element `low + (w mod (high - low))`, in unbounded integers (R260). -/
def randiValue (low high : Int) (w : Word) : Int := low + (w.toNat : Int) % (high - low)

/-- An integer element in the response: its `tc_64` pattern, most significant word first (R121, R77). -/
def intWords (v : Int) : List Word := dwordWords (tc64 v)

/-- The elements of CRANDN: u1 from the first list, u2 from the second (R262). -/
def normals (cfg : Cfg) (a b : List Word) : List Word :=
  List.zipWith (fun x y => cfg.bm32 (wordToF32 x) (wordToF32 y)) a b

/-! ## P-unit commands -/

/-- PNEXTF (R252). -/
def pnextf (s : State) : State :=
  match s.pUnit with
  | none => fail .pnextf .notReady s
  | some u =>
    let a := advance u
    respond .pnextf (dwordWords (wordToF64 a.1)) (setP a.2 s)

def execPnextf (s : State) : Host.Outcome State Fault Refusal := .next (pnextf s)

/-- PRANGE (R254): the range is inclusive; DomainError comes before any advance. -/
def prange (lo hi : Dword) (s : State) : State :=
  match s.pUnit with
  | none => fail .prange .notReady s
  | some u =>
    if hi.toInt < lo.toInt then fail .prange .domainError s
    else
      let a := advance u
      respond .prange (intWords (rangeValue lo.toInt hi.toInt a.1)) (setP a.2 s)

def execPrange (lo hi : Dword) (s : State) : Host.Outcome State Fault Refusal := .next (prange lo hi s)

/-- PBATCH (R256). -/
def pbatch (n : Dword) (s : State) : State :=
  match s.pUnit with
  | none => fail .pbatch .notReady s
  | some u =>
    if n.toInt < 0 then fail .pbatch .validationError s
    else
      let l := draws (countOf n) u
      respond .pbatch l.1 (setP l.2 s)

def execPbatch (n : Dword) (s : State) : Host.Outcome State Fault Refusal := .next (pbatch n s)

/-! ## C-unit commands -/

/-- CUNIF (R258). -/
def cunif (n : Dword) (s : State) : State :=
  match s.cUnit with
  | none => fail .cunif .notReady s
  | some u =>
    if n.toInt < 0 then fail .cunif .validationError s
    else
      let l := request (countOf n) u
      respond .cunif (l.1.map wordToF32) (setC l.2 s)

def execCunif (n : Dword) (s : State) : Host.Outcome State Fault Refusal := .next (cunif n s)

/-- CRANDI (R260): the range is half-open; DomainError before ValidationError (R308). -/
def crandi (low high n : Dword) (s : State) : State :=
  match s.cUnit with
  | none => fail .crandi .notReady s
  | some u =>
    if high.toInt ≤ low.toInt then fail .crandi .domainError s
    else if n.toInt < 0 then fail .crandi .validationError s
    else
      let l := request (countOf n) u
      respond .crandi (l.1.flatMap (fun w => intWords (randiValue low.toInt high.toInt w))) (setC l.2 s)

def execCrandi (low high n : Dword) (s : State) : Host.Outcome State Fault Refusal := .next (crandi low high n s)

/-- CRANDN (R262) under a configuration: two separate requests of n words. -/
def crandnWith (cfg : Cfg) (n : Dword) (s : State) : State :=
  match s.cUnit with
  | none => fail .crandn .notReady s
  | some u =>
    if n.toInt < 0 then fail .crandn .validationError s
    else
      let a := request (countOf n) u
      let b := request (countOf n) a.2
      respond .crandn (normals cfg a.1 b.1) (setC b.2 s)

def execCrandn (n : Dword) (s : State) : Host.Outcome State Fault Refusal := .next (crandnWith Config.CFG n s)

end Sys2Proof.Machine
end

