-- ==== Sys2Proof/Machine/SeedC.lean ====
section
/-! DEFINITION. Machine/SeedC.lean: seed expansion of the C-unit, CINIT and CDROP (41_seed_expansion_c.md). -/

namespace Sys2Proof.Machine

/-- Four digest bytes as one word, little-endian (R74, R174). -/
def leWord (b0 b1 b2 b3 : Byte) : Word := b3 ++ b2 ++ b1 ++ b0

/-- The key: the first 8 little-endian words of the digest; bytes 32 to 63 are not used (R174, C3). -/
def leWords (d : Vector Byte 64) : Oct Word :=
  ⟨leWord d[0] d[1] d[2] d[3], leWord d[4] d[5] d[6] d[7],
   leWord d[8] d[9] d[10] d[11], leWord d[12] d[13] d[14] d[15],
   leWord d[16] d[17] d[18] d[19], leWord d[20] d[21] d[22] d[23],
   leWord d[24] d[25] d[26] d[27], leWord d[28] d[29] d[30] d[31]⟩

/-- The C-unit that a CINIT whose checks passed commits (R173 to R176); there is no warm-up. -/
def expandC (cfg : Cfg) (seed : Int) (rounds : Word) (tag : List Byte) : CtrState :=
  let key := leWords (cfg.digest512 (digestMsg seed tag))
  { key := key, kmix := octXor key cfg.keyBase, ctr := 0#64, rounds := rounds }

/-- CINIT (R170) under a configuration: EncodingError before ValidationError (R308). -/
def cinitWith (cfg : Cfg) (seed : Option Qword) (rounds : Option Word) (tag : Option (List Byte)) (s : State) : State :=
  let v := (orDefault cSeedDefault seed).toInt
  let n := orDefault cRoundsDefault rounds
  if seedFits64 v = false then fail .cinit .encodingError s
  else if n = 0#32 then fail .cinit .validationError s
  else respond .cinit [] (setC (expandC cfg v n (orDefault cfg.domainC.toList tag)) s)

def execCinit (seed : Option Qword) (rounds : Option Word) (tag : Option (List Byte)) (s : State) :
    Host.Outcome State Fault Refusal := .next (cinitWith Config.CFG seed rounds tag s)

/-- CDROP (R178): always succeeds, also on an Unconstructed unit. -/
def execCdrop (s : State) : Host.Outcome State Fault Refusal := .next (respond .cdrop [] (dropC s))

end Sys2Proof.Machine
end

