-- ==== Sys2Proof/Machine/Binary64.lean ====
section
/-! DEFINITION. Machine/Binary64.lean: the IEEE 754 binary64 operations of R13 (00_scope.md), on bit patterns, with
round-to-nearest, ties-to-even: `(+)`, `(*)`, `(/)`, used by the schedule derivation (R147 to R149). A finite datum is an
exact dyadic number; each operation computes its exact result and rounds it once. The format's layout is general
knowledge that the spec uses by name: log entry 7. -/

namespace Sys2Proof.Machine

/-- A binary64 datum read: `fin neg m e` is the real number (-1)^neg * m * 2^e. -/
inductive FVal where
  | nan
  | inf (neg : Bool)
  | fin (neg : Bool) (m : Nat) (e : Int)
deriving DecidableEq, Repr

def f64Exp (x : F64) : Nat := (x.extractLsb' 52 11).toNat
def f64Frac (x : F64) : Nat := (x.extractLsb' 0 52).toNat

/-- The datum of a `bits64` pattern. -/
def f64Read (x : F64) : FVal :=
  if f64Exp x = 2047 then (if f64Frac x = 0 then .inf x.msb else .nan)
  else if f64Exp x = 0 then .fin x.msb (f64Frac x) (-1074)
  else .fin x.msb (2 ^ 52 + f64Frac x) ((f64Exp x : Int) - 1075)

/-- Neither an infinity nor a NaN. -/
def f64Finite (x : F64) : Bool := f64Exp x ≠ 2047

/-- The quiet NaN pattern a NaN result is given; no rule reads which NaN it is (R141 refuses every one). -/
def f64NaN : F64 := 0x7FF8000000000000#64

def f64Inf (neg : Bool) : F64 := BitVec.ofBool neg ++ 0x7FF0000000000000#63

/-- `m / 2^sh` rounded to the nearest integer, ties to even. -/
def roundShift (m sh : Nat) : Nat :=
  let q := m / 2 ^ sh
  let r := 2 * (m % 2 ^ sh)
  if r < 2 ^ sh then q else if 2 ^ sh < r then q + 1 else if q % 2 = 0 then q else q + 1

/-- `fl64` of (-1)^neg * m * 2^e (R13). The unit in the last place is 2^q, never below 2^-1074; a significand that
rounds up to 2^53 carries into the exponent by the addition, and past the largest exponent the result is an infinity. -/
def f64Round (neg : Bool) (m : Nat) (e : Int) : F64 :=
  if m = 0 then BitVec.ofBool neg ++ 0#63
  else
    let q := max ((Nat.log2 m : Int) + e - 52) (-1074)
    let sig := if q ≤ e then m * 2 ^ (e - q).toNat else roundShift m (q - e).toNat
    let mag := (q + 1074).toNat * 2 ^ 52 + sig
    if 2047 * 2 ^ 52 ≤ mag then f64Inf neg else BitVec.ofBool neg ++ BitVec.ofNat 63 mag

/-- `fl64` of (-1)^neg * num / den, for `den > 0` (R13): the quotient is carried to at least 65 bits and one sticky
bit. Used to convert decimal literals (R125, R103). -/
def f64OfRatio (neg : Bool) (num den : Nat) : F64 :=
  let k := 66 + Nat.log2 den - Nat.log2 num
  let up := num * 2 ^ k
  let sticky := if up % den = 0 then 0 else 1
  f64Round neg (2 * (up / den) + sticky) (-((k : Int) + 1))

/-- A natural number as binary64; exact for every constant the rules use. -/
def f64OfNat (n : Nat) : F64 := f64Round false n 0

/-- The signed integer `(-1)^neg * m * 2^(e - base)`, for `base ≤ e`. -/
def fAlign (neg : Bool) (m : Nat) (e base : Int) : Int :=
  let v : Int := (m * 2 ^ (e - base).toNat : Nat)
  if neg then -v else v

/-- `(+)` (R13). A zero sum is -0 only when both terms are negative. -/
def f64Add (x y : F64) : F64 :=
  match f64Read x, f64Read y with
  | .nan, _ => f64NaN
  | _, .nan => f64NaN
  | .inf a, .inf b => if a = b then f64Inf a else f64NaN
  | .inf a, .fin _ _ _ => f64Inf a
  | .fin _ _ _, .inf b => f64Inf b
  | .fin a m e, .fin b n f =>
    let base := min e f
    let v := fAlign a m e base + fAlign b n f base
    if v = 0 then BitVec.ofBool (a && b) ++ 0#63 else f64Round (decide (v < 0)) v.natAbs base

/-- `(*)` (R13). -/
def f64Mul (x y : F64) : F64 :=
  match f64Read x, f64Read y with
  | .nan, _ => f64NaN
  | _, .nan => f64NaN
  | .inf a, .inf b => f64Inf (a ^^ b)
  | .inf a, .fin b n _ => if n = 0 then f64NaN else f64Inf (a ^^ b)
  | .fin a m _, .inf b => if m = 0 then f64NaN else f64Inf (a ^^ b)
  | .fin a m e, .fin b n f => f64Round (a ^^ b) (m * n) (e + f)

/-- `(/)` (R13). The quotient is carried to 120 further bits and one sticky bit, more than the 53 that are kept. -/
def f64Div (x y : F64) : F64 :=
  match f64Read x, f64Read y with
  | .nan, _ => f64NaN
  | _, .nan => f64NaN
  | .inf _, .inf _ => f64NaN
  | .inf a, .fin b _ _ => f64Inf (a ^^ b)
  | .fin a _ _, .inf b => BitVec.ofBool (a ^^ b) ++ 0#63
  | .fin a m e, .fin b n f =>
    if n = 0 then (if m = 0 then f64NaN else f64Inf (a ^^ b))
    else
      let num := m * 2 ^ 120
      let sticky := if num % n = 0 then 0 else 1
      f64Round (a ^^ b) (2 * (num / n) + sticky) (e - f - 121)

/-- `floor(|x|)` of a finite datum, taken exactly (R149); 0 for the others, which R141 has refused by then. -/
def f64AbsFloor (x : F64) : Nat :=
  match f64Read x with
  | .fin _ m e => if 0 ≤ e then m * 2 ^ e.toNat else m / 2 ^ (-e).toNat
  | .inf _ => 0
  | .nan => 0

end Sys2Proof.Machine
end

