-- ==== Sys2Proof/Machine/SeedP.lean ====
section
/-! DEFINITION. Machine/SeedP.lean: seed expansion of the P-unit, PINIT and PDROP (40_seed_expansion_p.md). The functions
take the configuration as an argument; only the commands' meanings name `Config.CFG`. -/

namespace Sys2Proof.Machine

/-! ## The hash (R143) -/

/-- H1_INIT, H2_INIT, H1_MUL, H2_MUL (R7, R143). -/
def h1Init : Word := 0xDEADBEEF#32
def h2Init : Word := 0x41C6CE57#32
def h1Mul : Word := 2654435761#32
def h2Mul : Word := 1597334677#32

/-- One character: XOR the code point in, then multiply (R143). -/
def hashChar (h : Word × Word) (c : Byte) : Word × Word :=
  ((h.1 ^^^ c.setWidth 32) * h1Mul, (h.2 ^^^ c.setWidth 32) * h2Mul)

/-- The accumulators after the characters and before the finalizer (R143). -/
def hashAcc (cs : List Byte) : Word × Word := cs.foldl hashChar (h1Init, h2Init)

/-- `hash2(S)` (R143). -/
def hash2 (cfg : Cfg) (cs : List Byte) : Word × Word := cfg.final (hashAcc cs).1 (hashAcc cs).2

/-! ## The raw words (R145) and their split (R146) -/

/-- One update of the xorshift word: left 13, right 17, left 5 (R145). -/
def xorshift (x : Word) : Word :=
  let x := x ^^^ (x <<< 13)
  let x := x ^^^ (x >>> 17)
  x ^^^ (x <<< 5)

/-- `w[i]`: the word is advanced before it is used, and the increment is not fed back (R145). -/
def rawWord (seed : Qword) (h1 h2 : Word) (i : Nat) : Word :=
  xorshift^[i + 1] (seed.extractLsb' 0 32) + (h1 + h2 * BitVec.ofNat 32 i)

/-- `s'[j] = w[j]` (R146). -/
def initialWords (seed : Qword) (h : Word × Word) : Oct Word := octOf (fun j => rawWord seed h.1 h.2 j)

/-- `k'[j] = w[8+j] ^ KEYBASE[j]` (R146). -/
def roundKeys (cfg : Cfg) (seed : Qword) (h : Word × Word) : Oct Word :=
  octXor (octOf (fun j => rawWord seed h.1 h.2 (8 + j))) cfg.keyBase

/-! ## The rotation schedule (R147 to R149) -/

/-- The zeta list (R147): the three zetas, their mean, and the four further combinations. -/
def zetaList (cfg : Cfg) (z : Zetas) : Oct F64 :=
  let mean := f64Div (f64Add (f64Add z.z0 z.z1) z.z2) (f64OfNat 3)
  let a := cfg.zaff z
  ⟨z.z0, z.z1, z.z2, mean, a.1, a.2.1, a.2.2.1, a.2.2.2⟩

/-- `t_i = (zl[i] (*) 977.0) (+) fl64(i*7 + 13)` (R149). -/
def schedArg (z : F64) (i : Nat) : F64 := f64Add (f64Mul z (f64OfNat 977)) (f64OfNat (i * 7 + 13))

/-- `t_0 .. t_7` (R149). -/
def schedArgs (cfg : Cfg) (z : Zetas) : Oct F64 :=
  let l := zetaList cfg z
  ⟨schedArg l.x0 0, schedArg l.x1 1, schedArg l.x2 2, schedArg l.x3 3,
   schedArg l.x4 4, schedArg l.x5 5, schedArg l.x6 6, schedArg l.x7 7⟩

/-- `v = floor(|t|) mod 31`, with 0 replaced by 1 (R149). -/
def schedEntry (t : F64) : BitVec 5 :=
  let v := f64AbsFloor t % 31
  if v = 0 then 1#5 else BitVec.ofNat 5 v

/-- Every `t_i` is finite: the check of R141. -/
def schedFinite (cfg : Cfg) (z : Zetas) : Bool := (octList (schedArgs cfg z)).all f64Finite

/-- `schedule` (R149). -/
def schedule (cfg : Cfg) (z : Zetas) : Oct (BitVec 5) :=
  let t := schedArgs cfg z
  ⟨schedEntry t.x0, schedEntry t.x1, schedEntry t.x2, schedEntry t.x3,
   schedEntry t.x4, schedEntry t.x5, schedEntry t.x6, schedEntry t.x7⟩

/-! ## PINIT and PDROP -/

/-- WARMUP_STEPS (R7): 10 steps, whatever `rounds` is (R150, C4). -/
def warmupSteps : Nat := 10

/-- The P-unit that a PINIT whose checks passed commits (R140, R150): a function of its arguments alone. -/
def expandP (cfg : Cfg) (seed : Qword) (rounds : Word) (z : Zetas) (tag : List Byte) : PermState :=
  let h := hash2 cfg (hashInput seed.toInt tag)
  let k := roundKeys cfg seed h
  let r := schedule cfg z
  { s := (permStep k r)^[warmupSteps] (initialWords seed h), k := k, r := r, rounds := rounds }

/-- PINIT (R140) under a configuration: the checks of R141 first, then expansion and commit. -/
def pinitWith (cfg : Cfg) (seed : Qword) (rounds : Option Word) (zetas : Option Zetas) (tag : Option (List Byte))
    (s : State) : State :=
  let n := orDefault pRoundsDefault rounds
  let z := orDefault zetasDefault zetas
  if n = 0#32 then fail .pinit .validationError s
  else if schedFinite cfg z = false then fail .pinit .validationError s
  else respond .pinit [] (setP (expandP cfg seed n z (orDefault cfg.domainP.toList tag)) s)

def execPinit (seed : Qword) (rounds : Option Word) (zetas : Option Zetas) (tag : Option (List Byte)) (s : State) :
    Host.Outcome State Fault Refusal := .next (pinitWith Config.CFG seed rounds zetas tag s)

/-- PDROP (R152): always succeeds, also on an Unconstructed unit. -/
def execPdrop (s : State) : Host.Outcome State Fault Refusal := .next (respond .pdrop [] (dropP s))

end Sys2Proof.Machine
end

