-- ==== Sys2Proof/Machine/Dispatch.lean ====
section
/-! DEFINITION. Machine/Dispatch.lean: one arm per command, each one direct call of its meaning. -/

namespace Sys2Proof.Machine

def exec (i : Instr) (s : State) : Host.Outcome State Fault Refusal :=
  match i with
  | .pinit seed rounds zetas tag => Sys2Proof.Machine.execPinit seed rounds zetas tag s
  | .pnext32 => Sys2Proof.Machine.execPnext32 s
  | .pnextf => Sys2Proof.Machine.execPnextf s
  | .prange lo hi => Sys2Proof.Machine.execPrange lo hi s
  | .pbatch n => Sys2Proof.Machine.execPbatch n s
  | .pdrop => Sys2Proof.Machine.execPdrop s
  | .cinit seed rounds tag => Sys2Proof.Machine.execCinit seed rounds tag s
  | .cwords n => Sys2Proof.Machine.execCwords n s
  | .cunif n => Sys2Proof.Machine.execCunif n s
  | .crandi low high n => Sys2Proof.Machine.execCrandi low high n s
  | .crandn n => Sys2Proof.Machine.execCrandn n s
  | .cdrop => Sys2Proof.Machine.execCdrop s

end Sys2Proof.Machine
end

