-- ==== Sys2Proof/Machine/Step.lean ====
section
/-! DEFINITION. Machine/Step.lean: the engine's step (R86 of 20_memory.md): one complete command from the head of `CMD`,
executed whole (R82). -/

namespace Sys2Proof.Machine

/-- The step. An illegal command is answered with IllegalCommand, its words consumed and no unit changed (R111, R112,
R305, R306); an incomplete one leaves the engine waiting (R86). -/
def step (s : State) : Host.Outcome State Fault Refusal :=
  match decode s.cmd with
  | .incomplete => .fault .awaitingCommand
  | .illegal opc _ rest => .next (raiseError opc .illegalCommand (popCommand rest s))
  | .command i rest => exec i (popCommand rest s)

/-- The host's placement of one command: its words stand at the head of `CMD`, before whatever is there, exactly as many
as its header calls for. Log entry 6. -/
def State.withFetchWord (s : State) (nbits w : Nat) : State := { s with cmd := tableWords nbits w ++ s.cmd }

end Sys2Proof.Machine
end

