-- ==== Sys2Proof/Machine/FloatValue.lean ====
section
/-! DEFINITION. Machine/FloatValue.lean: the real number a float pattern stands for, as an exact rational, for the claims
that speak of values (R252, R253, R257, R259 of 44_output_distributions.md). -/

namespace Sys2Proof.Machine

def f32Exp (x : F32) : Nat := (x.extractLsb' 23 8).toNat
def f32Frac (x : F32) : Nat := (x.extractLsb' 0 23).toNat

/-- The datum of a `bits32` pattern (binary32: 8 exponent bits, 23 fraction bits). -/
def f32Read (x : F32) : FVal :=
  if f32Exp x = 255 then (if f32Frac x = 0 then .inf x.msb else .nan)
  else if f32Exp x = 0 then .fin x.msb (f32Frac x) (-149)
  else .fin x.msb (2 ^ 23 + f32Frac x) ((f32Exp x : Int) - 150)

/-- Neither an infinity nor a NaN. -/
def f32Finite (x : F32) : Bool := f32Exp x ≠ 255

/-- The number a finite datum stands for. -/
def fvalRat : FVal → Option ℚ
  | .nan => none
  | .inf _ => none
  | .fin neg m e => some ((if neg then -1 else 1) * (m : ℚ) * (2 : ℚ) ^ e)

def f64Rat (x : F64) : Option ℚ := fvalRat (f64Read x)
def f32Rat (x : F32) : Option ℚ := fvalRat (f32Read x)

/-- A binary32 datum in [0,1): sign 0 and below the pattern of 1.0 (the arguments R263 speaks of). -/
def f32InUnit (x : F32) : Bool := decide (x.toNat < 0x3F800000)

end Sys2Proof.Machine
end

