-- ==== Sys2Proof/Machine/BoxMuller.lean ====
section
/-! DEFINITION. Machine/BoxMuller.lean: what NUM.bm32 is meant to approximate (R262, R263 of
44_output_distributions.md): the clamp U1_MIN and the real-valued Box-Muller formula. No instruction's meaning reads them,
because no rule fixes how near NUM.bm32 comes to the formula: log entry 9. -/

namespace Sys2Proof.Machine

/-- U1_MIN (R7): 1e-12, the least first argument that the logarithm is taken of. -/
def u1Min : ℚ := 1 / 10 ^ 12

/-- `y = bm_real(u1, u2) = sqrt(-2 * ln(max(u1, 10^-12))) * cos(2 * pi * u2)` (R263). -/
def IsBmReal (u1 u2 y : ℝ) : Prop :=
  y = Real.sqrt (-2 * Real.log (max u1 (u1Min : ℝ))) * Real.cos (2 * Real.pi * u2)

end Sys2Proof.Machine
end

