-- ==== Sys2Proof/Machine/FrontEnd.lean ====
section
/-! DEFINITION. Machine/FrontEnd.lean: the host's front end (R126 of 30_encoding.md, R251 of 44_output_distributions.md):
D0's operation names and the command each stands for, with shapes reduced to element counts. -/

namespace Sys2Proof.Machine

/-- D0's operations with their operands (R126); a left-out operand is `none`. -/
inductive HostCall where
  | permutationRGE (seed : Int) (rounds : Option Int) (zetas : Option Zetas) (domain : Option (List Byte))
  | next32
  | nextFloat
  | nextRange (lo hi : Int)
  | nextBatch (n : Int)
  | counterModeRGE (seed : Option Int) (rounds : Option Int) (domain : Option (List Byte))
  | randomWords (n : Int)
  | uniform (shape : List Int)
  | randint (low high : Int) (shape : List Int)
  | randn (shape : List Int)
deriving DecidableEq, Repr

/-- Why the front end issues no command: the ValidationError it must raise itself (R126, R303), or an operand that the
operand widths cannot carry (D4). -/
inductive HostReject where
  | validationError | notExpressible
deriving DecidableEq, Repr

/-- An integer as a `w`-bit two's-complement operand (R12: `tc_N`), when it fits. -/
def signedOperand (w : Nat) (v : Int) : Except HostReject (BitVec w) :=
  if -(2 ^ (w - 1) : Int) ≤ v ∧ v < 2 ^ (w - 1) then .ok (BitVec.ofInt w v) else .error .notExpressible

/-- A round count as a u32 operand (ROUNDS_W), when it fits; 0 is carried and refused by the engine. -/
def roundsOperand : Option Int → Except HostReject (Option Word)
  | none => .ok none
  | some v => if 0 ≤ v ∧ v < 2 ^ 32 then .ok (some (BitVec.ofInt 32 v)) else .error .notExpressible

/-- A tag operand, when its length fits DLEN. -/
def tagOperand (t : Option (List Byte)) : Except HostReject (Option (List Byte)) :=
  if tagFits t then .ok t else .error .notExpressible

/-- The element count of a shape: the product of its extents, 1 for the empty shape; a negative extent is a
ValidationError of the host's own (R126, R303). -/
def shapeCount (shape : List Int) : Except HostReject Dword :=
  if shape.any (fun e => decide (e < 0)) then .error .validationError else signedOperand 64 shape.prod

/-- The command a call stands for (R126). A shape is looked at before the bounds of `randint`, so that a negative extent is
the host's ValidationError whatever the bounds are (log entry 12). -/
def expandCall : HostCall → Except HostReject Instr
  | .permutationRGE seed rounds zetas domain => do
    let s ← signedOperand 128 seed
    let n ← roundsOperand rounds
    let t ← tagOperand domain
    return .pinit s n zetas t
  | .next32 => .ok .pnext32
  | .nextFloat => .ok .pnextf
  | .nextRange lo hi => do
    let a ← signedOperand 64 lo
    let b ← signedOperand 64 hi
    return .prange a b
  | .nextBatch n => do
    let c ← signedOperand 64 n
    return .pbatch c
  | .counterModeRGE none rounds domain => do
    let n ← roundsOperand rounds
    let t ← tagOperand domain
    return .cinit none n t
  | .counterModeRGE (some seed) rounds domain => do
    let s ← signedOperand 128 seed
    let n ← roundsOperand rounds
    let t ← tagOperand domain
    return .cinit (some s) n t
  | .randomWords n => do
    let c ← signedOperand 64 n
    return .cwords c
  | .uniform shape => do
    let c ← shapeCount shape
    return .cunif c
  | .randint low high shape => do
    let c ← shapeCount shape
    let a ← signedOperand 64 low
    let b ← signedOperand 64 high
    return .crandi a b c
  | .randn shape => do
    let c ← shapeCount shape
    return .crandn c

end Sys2Proof.Machine
end

