-- ==== Sys2Proof/Machine/RefCfg.lean ====
section
/-! DEFINITION. Machine/RefCfg.lean: the reference configuration `REFCFG` (R7, R144, R148; D33): the spec's own choice of
values, used ONLY to check the model against the vectors of 95_test_vectors.md, and by no meaning of an instruction. The
spec prints no algorithm for DIGEST512 and gives no reference NUM.bm32, so both are arguments here (log entry 8). -/

namespace Sys2Proof.Machine

/-- REFCFG.KEYBASE (R7). -/
def refKeyBase : Oct Word :=
  ⟨0x6A09E667#32, 0xBB67AE85#32, 0x3C6EF372#32, 0xA54FF53A#32, 0x510E527F#32, 0x9B05688C#32, 0x1F83D9AB#32, 0x5BE0CD19#32⟩

/-- REFCFG.DOMAIN_DEFAULT_P: `RGE256-PERM` (R7). -/
def refDomainP : DefaultTag :=
  ⟨11, #v[0x52#8, 0x47#8, 0x45#8, 0x32#8, 0x35#8, 0x36#8, 0x2D#8, 0x50#8, 0x45#8, 0x52#8, 0x4D#8]⟩

/-- REFCFG.DOMAIN_DEFAULT_C: `RGE256-CTR` (R7). -/
def refDomainC : DefaultTag :=
  ⟨10, #v[0x52#8, 0x47#8, 0x45#8, 0x32#8, 0x35#8, 0x36#8, 0x2D#8, 0x43#8, 0x54#8, 0x52#8]⟩

/-- REFCFG.FINAL (R144): `b` is computed from the new `a`. -/
def refFinal (h1 h2 : Word) : Word × Word :=
  let a := (h1 ^^^ (h1 >>> 16)) * 2246822507#32 ^^^ (h2 ^^^ (h2 >>> 13)) * 3266489909#32
  let b := (h2 ^^^ (h2 >>> 16)) * 2246822507#32 ^^^ (a ^^^ (a >>> 13)) * 3266489909#32
  (a, b)

/-- REFCFG.ZAFF (R148). -/
def refZaff (z : Zetas) : F64 × F64 × F64 × F64 :=
  (f64Add z.z0 z.z1, f64Add z.z1 z.z2, f64Add z.z0 z.z2, f64Add (f64Add z.z0 z.z1) z.z2)

/-- REFCFG, with the digest and the Box-Muller function left as arguments. -/
def refCfg (digest : List Byte → Vector Byte 64) (bm : F32 → F32 → F32) : Cfg :=
  { keyBase := refKeyBase, domainP := refDomainP, domainC := refDomainC, final := refFinal, zaff := refZaff,
    digest512 := digest, bm32 := bm }

end Sys2Proof.Machine
end

