-- ==== Sys2Proof/Machine/HostPort.lean ====
section
/-! DEFINITION. Machine/HostPort.lean: the host's side of the two streams and reset (R86 of 20_memory.md, R340 of
70_reset_and_hazards.md). The host is the other agent: these happen between steps of the engine, never inside `step`
(log entry 5). They are the only ways in and out of the engine (R70, R71). -/

namespace Sys2Proof.Machine

/-- The host appends words to `CMD` (R86). -/
def hostAppend (ws : List Word) (s : State) : State := { s with cmd := s.cmd ++ ws }

/-- The host removes the first `n` words of `RSP`: the words, and the engine after (R86). Reading `RSP` changes nothing
else (R83). -/
def hostTake (n : Nat) (s : State) : List Word × State := (s.rsp.take n, { s with rsp := s.rsp.drop n })

/-- Reset (R340): both ready bits cleared, both streams emptied, a command in progress abandoned with no response;
nothing of the state before it is left (U22). -/
def hostReset (_ : State) : State := State.reset

end Sys2Proof.Machine
end

