-- ==== Sys2Proof/Safety.lean ====
section
/-! DEFINITION. Safety.lean: what a good state is, and the terms the claims use. -/

namespace Sys2Proof.Machine

/-- A rotation amount of a schedule: in [1,30] (R32). -/
def rotLegal (r : BitVec 5) : Bool := decide (1 ≤ r.toNat ∧ r.toNat ≤ 30)

/-- The P-unit's invariants while ready: R32 for the schedule, R33 for the round count. -/
def PermState.legal (u : PermState) : Bool := (octList u.r).all rotLegal && decide (1 ≤ u.rounds.toNat)

/-- The C-unit's invariants while ready: R37 for the mixed key under a configuration, R39 for the round count. -/
def CtrState.legal (cfg : Cfg) (u : CtrState) : Bool :=
  decide (u.kmix = octXor u.key cfg.keyBase) && decide (1 ≤ u.rounds.toNat)

/-- The invariant of the engine's state (R32, R33, R37, R39): it speaks of a unit only while the unit is ready. -/
def State.Inv (s : State) : Prop :=
  (∀ u, s.pUnit = some u → u.legal = true) ∧ (∀ u, s.cUnit = some u → u.legal Config.CFG = true)

/-- NUM_FINITE (R263): the one property of NUM.bm32 that a proof may take as a premise. -/
def NumFinite (cfg : Cfg) : Prop :=
  ∀ u1 u2 : F32, f32InUnit u1 = true → f32InUnit u2 = true → f32Finite (cfg.bm32 u1 u2) = true

/-! ## The two word sequences, by index -/

/-- Entry `j mod 8` of eight things. -/
def octAt {α : Type} (o : Oct α) (j : Nat) : α :=
  match j % 8 with
  | 0 => o.x0
  | 1 => o.x1
  | 2 => o.x2
  | 3 => o.x3
  | 4 => o.x4
  | 5 => o.x5
  | 6 => o.x6
  | _ => o.x7

/-- The P-unit after `n` more advances: `n * p_rounds` steps, nothing else changed (R198). -/
def pAfter (u : PermState) (n : Nat) : PermState := { u with s := (permStep u.k u.r)^[n * u.rounds.toNat] u.s }

/-- The word that the advance number `j` (from 0) of a P-unit returns (R198). -/
def pWord (u : PermState) (j : Nat) : Word := extractWord (pAfter u (j + 1)).s

/-- The C-unit after `q` more blocks: `ctr` advanced by `q` modulo 2^64, nothing else changed (R226, R230). -/
def cAfter (u : CtrState) (q : Nat) : CtrState := { u with ctr := u.ctr + BitVec.ofNat 64 q }

/-- Word `j` of a request: word `j mod 8` of the pure block of the counter `ctr + j / 8` (R228, R230). -/
def cWord (u : CtrState) (j : Nat) : Word :=
  octAt (blockFn u.key u.kmix u.rounds (u.ctr + BitVec.ofNat 64 (j / 8))) j

/-- The words `f 0, …, f (n-1)` in order. -/
def wordsOf {α : Type} (n : Nat) (f : Nat → α) : List α := (List.range n).map f

/-! ## Header bits, in plain arithmetic -/

/-- The OPC byte as a number (R100). -/
def opcNum (h : Word) : Nat := h.toNat / 2 ^ 24

/-- The 12 values of R104. -/
def knownOpcs : List Nat := [0x10, 0x11, 0x12, 0x13, 0x14, 0x1F, 0x20, 0x21, 0x22, 0x23, 0x24, 0x2F]

/-- The two INIT formats (R104). -/
def initOpc (h : Word) : Prop := opcNum h = 0x10 ∨ opcNum h = 0x20

/-- R111, its cases (a) to (f), on the header's bits as R100 numbers them. -/
def illegalHeader (h : Word) : Prop :=
  opcNum h ∉ knownOpcs
  ∨ (¬ initOpc h ∧ h.toNat % 2 ^ 24 ≠ 0)
  ∨ (initOpc h ∧ h.toNat / 2 ^ 16 % 2 ^ 4 ≠ 0)
  ∨ (opcNum h = 0x10 ∧ h.toNat.testBit 20 = true)
  ∨ (opcNum h = 0x20 ∧ h.toNat.testBit 21 = true)
  ∨ (initOpc h ∧ h.toNat.testBit 23 = true ∧ h.toNat % 2 ^ 16 ≠ 0)

/-- The response word of an error: `OPC * 2^24 + ERR * 2^16` (R306 (c)). -/
def errorWord (opc err : Nat) : Word := BitVec.ofNat 32 (opc * 2 ^ 24 + err * 2 ^ 16)

/-- The commands of the P-unit (R104). -/
def onPUnit : Instr → Bool
  | .pinit _ _ _ _ => true
  | .pnext32 => true
  | .pnextf => true
  | .prange _ _ => true
  | .pbatch _ => true
  | .pdrop => true
  | .cinit _ _ _ => false
  | .cwords _ => false
  | .cunif _ => false
  | .crandi _ _ _ => false
  | .crandn _ => false
  | .cdrop => false

/-- `r` is the binary64 datum nearest to the real number `x`, ties to even (R13): no finite datum is nearer, and where
another one is as near, the fraction of the chosen pattern is even. -/
def nearestEven (pattern : F64) (r x : ℚ) : Prop :=
  ∀ (y : F64) (q : ℚ), f64Rat y = some q →
    |r - x| ≤ |q - x| ∧ (|r - x| = |q - x| → q = r ∨ pattern.getLsbD 0 = false)

end Sys2Proof.Machine
end

