-- ==== Sys2Proof/Certificates/Slice0/Obligations.lean ====
section
/-! DEFINITION. Certificates/Slice0/Obligations.lean: the statements for the provers. A next state written
`{ s with … }` is the frame as well: every field not named is the one of `s`. `exec`'s state has the command's own words
removed from `CMD` already (they leave in `step`, R82), so `cmd` is never named by a statement about `exec`. -/

open Sys2Proof Sys2Proof.Machine

/-! ## Encoding -/

/-- Decoding the encoding of any well-formed command gives that command and the words after it, for every operand value
and every use of the default flags (R100 to R105). -/
def Obligations.DecodeOfEncodeIsTheCommand : Prop :=
  ∀ (i : Instr) (rest : List Word), i.wellFormed = true → decode (encode i ++ rest) = .command i rest

/-- Every word sequence that decodes is the encoding of the command it decodes to: each command has one encoding, and no
bit of it is ignored (R113: every encoding is one of the 12 commands in a legal form or illegal). -/
def Obligations.DecodedWordsAreTheOneEncoding : Prop :=
  ∀ (ws : List Word) (i : Instr) (rest : List Word),
    decode ws = .command i rest → i.wellFormed = true ∧ ws = encode i ++ rest

/-- Words written out from R100 to R104 and the worked encodings of 30_encoding.md section 6 decode to their commands. -/
def Obligations.WorkedEncodingsDecode : Prop :=
  decode [0x11000000#32] = .command .pnext32 []
  ∧ decode [0x13000000#32, 0xFFFFFFFF#32, 0xFFFFFFFD#32, 0#32, 3#32] = .command (.prange (-3) 3) []
  ∧ decode [0x23000000#32, 0#32, 0#32, 0#32, 6#32, 0#32, 4#32] = .command (.crandi 0 6 4) []
  ∧ decode [0x20D00000#32] = .command (.cinit none none none) []
  ∧ decode [0x10E00000#32, 0#32, 0#32, 0#32, 1#32] = .command (.pinit 1 none none none) []

/-- R111 whole: exactly the headers with one of its six conditions are illegal; such a header is consumed alone, no unit
changes, and the answer is IllegalCommand with the OPC byte echoed; any other header is that of one of the 12 opcodes. -/
def Obligations.IllegalHeaderIsAnsweredAlone : Prop :=
  ∀ (s : State) (h : Word) (tail : List Word), s.cmd = h :: tail →
    (illegalHeader h →
      step s = .next { s with cmd := tail, rsp := s.rsp ++ [errorWord (opcNum h) 5] })
    ∧ (¬ illegalHeader h → ∃ o : Opcode, checkHeader h = .ok o ∧ o.byte.toNat = opcNum h)

/-- R112: a complete command under a legal header is illegal exactly when it is an INIT with DD = 0 and DLEN not a multiple
of 4 whose last tag word has a non-zero bit among its `8 * (4 - DLEN mod 4)` low-order bits; then all `len(H)` words are
consumed, no unit changes, and the answer is IllegalCommand. -/
def Obligations.NonZeroTagPaddingIsIllegalAsAWhole : Prop :=
  ∀ (s : State) (h : Word) (tail : List Word), s.cmd = h :: tail → ¬ illegalHeader h → cmdLen h ≤ s.cmd.length →
    let badPadding : Prop :=
      initOpc h ∧ h.toNat.testBit 23 = false ∧ h.toNat % 4 ≠ 0
      ∧ (s.cmd.getD (cmdLen h - 1) 0#32).toNat % 2 ^ (8 * (4 - h.toNat % 4)) ≠ 0
    (badPadding →
      step s = .next { s with cmd := s.cmd.drop (cmdLen h), rsp := s.rsp ++ [errorWord (opcNum h) 5] })
    ∧ (¬ badPadding → ∃ i : Instr, decode s.cmd = .command i (s.cmd.drop (cmdLen h)))

/-- R105 on the header's bits, for every header that R111 allows, with the range of R106 for the INIT commands. -/
def Obligations.LengthIsAFunctionOfTheHeader : Prop :=
  ∀ h : Word,
    (illegalHeader h → cmdLen h = 1)
    ∧ (¬ illegalHeader h →
      let dd := h.toNat.testBit 23
      let dr := h.toNat.testBit 22
      let dz := h.toNat.testBit 21
      let ds := h.toNat.testBit 20
      let tag := if dd then 0 else (h.toNat % 2 ^ 16 + 3) / 4
      (opcNum h ∈ [0x11, 0x12, 0x1F, 0x2F] → cmdLen h = 1)
      ∧ (opcNum h ∈ [0x14, 0x21, 0x22, 0x24] → cmdLen h = 3)
      ∧ (opcNum h = 0x13 → cmdLen h = 5)
      ∧ (opcNum h = 0x23 → cmdLen h = 7)
      ∧ (opcNum h = 0x10 →
          cmdLen h = 1 + 4 + (if dr then 0 else 1) + (if dz then 0 else 6) + tag ∧ 5 ≤ cmdLen h ∧ cmdLen h ≤ 16396)
      ∧ (opcNum h = 0x20 →
          cmdLen h = 1 + (if ds then 0 else 4) + (if dr then 0 else 1) + tag ∧ 1 ≤ cmdLen h ∧ cmdLen h ≤ 16390))

/-! ## The step -/

/-- The step runs the decoded command: the state it gives is that of `exec` on the state whose `CMD` is the words after
the command, and nothing else is added around `exec`. -/
def Obligations.StepRunsTheDecodedCommand : Prop :=
  ∀ (s : State) (i : Instr) (rest : List Word),
    decode s.cmd = .command i rest → step s = exec i { s with cmd := rest }

/-- R86: the engine steps exactly when a complete command stands at the head of `CMD`, and otherwise takes no step (the
model's fault `awaitingCommand`, log entry 3); so no command stops the machine (R309). -/
def Obligations.StepsExactlyWhenACommandIsComplete : Prop :=
  ∀ s : State,
    ((∃ t, step s = .next t) ↔ ∃ h tail, s.cmd = h :: tail ∧ cmdLen h ≤ s.cmd.length)
    ∧ ((¬ ∃ t, step s = .next t) → step s = .fault .awaitingCommand)

/-- R82, R120, R300, R306: a step takes exactly the words of the command at the head of `CMD` and appends exactly one
response, whose header echoes the OPC byte, carries ERR in 0 to 5, and is zero below; a response with ERR not 0 is the header
alone and no unit has changed. -/
def Obligations.EveryStepAnswersItsCommandOnce : Prop :=
  ∀ s t : State, step s = .next t →
    ∃ (h : Word) (tail : List Word) (err : Byte) (payload : List Word),
      s.cmd = h :: tail ∧ cmdLen h ≤ s.cmd.length ∧ t.cmd = s.cmd.drop (cmdLen h)
      ∧ t.rsp = s.rsp ++ (errorWord (opcNum h) err.toNat :: payload)
      ∧ err.toNat ≤ 5
      ∧ (err.toNat ≠ 0 → payload = [] ∧ t.pUnit = s.pUnit ∧ t.cUnit = s.cUnit)

/-- R32, R33, R37, R39: the schedule stays in [1,30], the round counts stay positive and the mixed key stays the key XOR the
key base, across every step from every state in which they hold. -/
def Obligations.StepKeepsTheUnitInvariants : Prop :=
  ∀ s t : State, s.Inv → step s = .next t → t.Inv

/-- The invariants hold at reset. -/
def Obligations.ResetHasTheUnitInvariants : Prop := State.reset.Inv

/-- R352: the responses do not depend on how the command words were paced. Steps taken while `CMD` held a first part of the
words, then steps after a second part arrived, leave the state that the same number of steps leaves when all of the words
stood there from the start. -/
def Obligations.PacingOfCommandWordsDoesNotMatter : Prop :=
  ∀ (m n : Nat) (a b : List Word) (s t u : State),
    Host.Core.run Sys2Proof.core m (hostAppend a s) = .next t →
    Host.Core.run Sys2Proof.core n (hostAppend b t) = .next u →
    Host.Core.run Sys2Proof.core (m + n) (hostAppend (a ++ b) s) = .next u

/-- R2, R313: a P-unit command reads and writes only the P-unit and the response stream, and a C-unit command only the C-unit
and the response stream: two states that agree on the command's unit give the same response and agree on that unit after,
and the other unit is as it was. -/
def Obligations.UnitsDoNotInterfere : Prop :=
  ∀ (i : Instr) (s s' : State),
    (onPUnit i = true → s.pUnit = s'.pUnit →
      ∃ (t t' : State) (answer : List Word), exec i s = .next t ∧ exec i s' = .next t'
        ∧ t.rsp = s.rsp ++ answer ∧ t'.rsp = s'.rsp ++ answer ∧ t.pUnit = t'.pUnit
        ∧ t.cUnit = s.cUnit ∧ t'.cUnit = s'.cUnit ∧ t.cmd = s.cmd ∧ t'.cmd = s'.cmd)
    ∧ (onPUnit i = false → s.cUnit = s'.cUnit →
      ∃ (t t' : State) (answer : List Word), exec i s = .next t ∧ exec i s' = .next t'
        ∧ t.rsp = s.rsp ++ answer ∧ t'.rsp = s'.rsp ++ answer ∧ t.cUnit = t'.cUnit
        ∧ t.pUnit = s.pUnit ∧ t'.pUnit = s'.pUnit ∧ t.cmd = s.cmd ∧ t'.cmd = s'.cmd)

/-- R31 to R33, R36, R37, R39: between one INIT and the next, no step changes the keys, the schedule or the round count of a
unit that is ready before and after it. -/
def Obligations.OnlyInitChangesKeysScheduleAndRounds : Prop :=
  ∀ (s t : State) (h : Word) (tail : List Word), s.cmd = h :: tail → step s = .next t →
    (opcNum h ≠ 0x10 → ∀ u v, s.pUnit = some u → t.pUnit = some v → v.k = u.k ∧ v.r = u.r ∧ v.rounds = u.rounds)
    ∧ (opcNum h ≠ 0x20 → ∀ u v, s.cUnit = some u → t.cUnit = some v →
        v.key = u.key ∧ v.kmix = u.kmix ∧ v.rounds = u.rounds)

/-- R34, R42: the ready bits are set by INIT and cleared by DROP and by nothing else that a step does. -/
def Obligations.OnlyInitAndDropMoveTheReadyBits : Prop :=
  ∀ (s t : State) (h : Word) (tail : List Word), s.cmd = h :: tail → step s = .next t →
    (t.pReady ≠ s.pReady → opcNum h = 0x10 ∨ opcNum h = 0x1F)
    ∧ (t.cReady ≠ s.cReady → opcNum h = 0x20 ∨ opcNum h = 0x2F)
    ∧ (opcNum h = 0x10 → s.pReady = true → t.pReady = true)
    ∧ (opcNum h = 0x20 → s.cReady = true → t.cReady = true)

/-! ## Reset and the streams -/

/-- R340, R49: reset, whatever the state, clears both ready bits and empties both streams. -/
def Obligations.ResetClearsReadyBitsAndStreams : Prop :=
  ∀ s : State, (hostReset s).pReady = false ∧ (hostReset s).cReady = false
    ∧ (hostReset s).cmd = [] ∧ (hostReset s).rsp = [] ∧ hostReset s = Sys2Proof.core.reset

/-- R83: the host's removing responses changes nothing that the engine reads or appends: the step after it takes the same
command and appends the same words, and both units come out the same. -/
def Obligations.TakingResponsesDoesNotDisturbTheEngine : Prop :=
  ∀ (n : Nat) (s t : State), n ≤ s.rsp.length → step s = .next t →
    step (hostTake n s).2 = .next (hostTake n t).2 ∧ (hostTake n t).1 = (hostTake n s).1

/-! ## Primitives -/

/-- `rotl32` in plain arithmetic (R10): the amount is reduced modulo 32, the bits shifted out come back below. -/
def Obligations.RotationWrapsAndReducesItsAmount : Prop :=
  ∀ (a : Word) (n : Nat),
    (rotl32 a n).toNat = a.toNat * 2 ^ (n % 32) % 2 ^ 32 + a.toNat / 2 ^ (32 - n % 32)

/-- R191: `derived(a,b)` is `(a + b) mod 31`, the sum taken as a plain integer, or 1 where that is 0; so it is in [1,30]. -/
def Obligations.DerivedAmountIsTheSumModulo31NeverZero : Prop :=
  ∀ a b : BitVec 5,
    ((a.toNat + b.toNat) % 31 ≠ 0 → derived a b = (a.toNat + b.toNat) % 31)
    ∧ ((a.toNat + b.toNat) % 31 = 0 → derived a b = 1)
    ∧ 1 ≤ derived a b ∧ derived a b ≤ 30

/-- R192's text for Quad A and Quad B, as equations between the words before and after: with the intermediate words named,
each assignment reads the values written before it; Quad A leaves words 4 to 7, Quad B words 0 to 3, so they commute. -/
def Obligations.QuadsMixTheirOwnFourWords : Prop :=
  ∀ (k s : Oct Word) (r : Oct (BitVec 5)),
    (∃ a0 a1 a2 a3 : Word,
      a0 = s.x0 + s.x1 + k.x0 ∧ a1 = rotl32 (s.x1 ^^^ a0) r.x0.toNat
      ∧ a2 = s.x2 + s.x3 + k.x1 ∧ a3 = rotl32 (s.x3 ^^^ a2) r.x1.toNat
      ∧ (quadA k r s).x0 = a0 + rotl32 (a0 ^^^ a2) r.x2.toNat + k.x2
      ∧ (quadA k r s).x2 = a2 + rotl32 (a1 ^^^ a3) r.x3.toNat + k.x3
      ∧ (quadA k r s).x1 = a1 ^^^ rotl32 (quadA k r s).x0 (derived r.x0 r.x2)
      ∧ (quadA k r s).x3 = a3 ^^^ rotl32 (quadA k r s).x2 (derived r.x1 r.x3))
    ∧ ((quadA k r s).x4 = s.x4 ∧ (quadA k r s).x5 = s.x5 ∧ (quadA k r s).x6 = s.x6 ∧ (quadA k r s).x7 = s.x7)
    ∧ (∃ b0 b1 b2 b3 : Word,
      b0 = s.x4 + s.x5 + k.x4 ∧ b1 = rotl32 (s.x5 ^^^ b0) r.x4.toNat
      ∧ b2 = s.x6 + s.x7 + k.x5 ∧ b3 = rotl32 (s.x7 ^^^ b2) r.x5.toNat
      ∧ (quadB k r s).x4 = b0 + rotl32 (b0 ^^^ b2) r.x6.toNat + k.x6
      ∧ (quadB k r s).x6 = b2 + rotl32 (b1 ^^^ b3) r.x7.toNat + k.x7
      ∧ (quadB k r s).x5 = b1 ^^^ rotl32 (quadB k r s).x4 (derived r.x4 r.x6)
      ∧ (quadB k r s).x7 = b3 ^^^ rotl32 (quadB k r s).x6 (derived r.x5 r.x7))
    ∧ ((quadB k r s).x0 = s.x0 ∧ (quadB k r s).x1 = s.x1 ∧ (quadB k r s).x2 = s.x2 ∧ (quadB k r s).x3 = s.x3)
    ∧ quadB k r (quadA k r s) = quadA k r (quadB k r s)

/-- R193, R194: cross coupling writes words 1, 3, 5 and 7, the last two from the words 1 and 3 just written; the global fold
takes its four differences before it writes, adds to words 0 to 3 and XORs words 4 to 7 with the words 0 to 3 just written.
R196: a permutation step is Quad A, then Quad B, then cross coupling, then the global fold. -/
def Obligations.CrossAndFoldCoupleTheEightWords : Prop :=
  ∀ (k s : Oct Word) (r : Oct (BitVec 5)),
    permStep k r s = fold (cross (quadB k r (quadA k r s)))
    ∧ cross s
      = ⟨s.x0, s.x1 ^^^ rotl32 s.x5 13, s.x2, s.x3 ^^^ rotl32 s.x7 7, s.x4, s.x5 ^^^ rotl32 (cross s).x1 11, s.x6,
         s.x7 ^^^ rotl32 (cross s).x3 17⟩
    ∧ fold s
      = ⟨s.x0 + rotl32 (s.x1 ^^^ s.x5) 3, s.x1 + rotl32 (s.x2 ^^^ s.x6) 5, s.x2 + rotl32 (s.x3 ^^^ s.x7) 7,
         s.x3 + rotl32 (s.x0 ^^^ s.x4) 11, s.x4 ^^^ rotl32 (fold s).x0 19, s.x5 ^^^ rotl32 (fold s).x1 23,
         s.x6 ^^^ rotl32 (fold s).x2 29, s.x7 ^^^ rotl32 (fold s).x3 31⟩

/-- R197 (a): with all keys zero the zero state is a fixed point of the step, hence of any number of steps, for every
schedule. -/
def Obligations.ZeroStateIsFixedUnderZeroKeys : Prop :=
  ∀ (r : Oct (BitVec 5)) (n : Nat),
    (permStep ⟨0, 0, 0, 0, 0, 0, 0, 0⟩ r)^[n] ⟨0, 0, 0, 0, 0, 0, 0, 0⟩ = ⟨0, 0, 0, 0, 0, 0, 0, 0⟩

/-- R13: the sum, the product and the quotient of two finite data are finite exactly when the exact result is smaller in
magnitude than 2^1024 - 2^970, the bound from which rounding to nearest overflows; and a finite result is the datum nearest
to the exact one, ties to even. The layout of binary64 and the pattern of a NaN are general knowledge (log entry 7). -/
def Obligations.Binary64OperationsRoundToNearestEven : Prop :=
  ∀ (x y : F64) (a b : ℚ), f64Rat x = some a → f64Rat y = some b →
    let rounds : F64 → ℚ → Prop := fun result exact =>
      (|exact| < 2 ^ 1024 - 2 ^ 970 → ∃ r, f64Rat result = some r ∧ nearestEven result r exact)
      ∧ (2 ^ 1024 - 2 ^ 970 ≤ |exact| → f64Finite result = false)
    rounds (f64Add x y) (a + b) ∧ rounds (f64Mul x y) (a * b) ∧ (b ≠ 0 → rounds (f64Div x y) (a / b))

/-! ## Seed expansion of the P-unit -/

/-- R142: `dec(n)` is the decimal numeral: ASCII digits only, worth `n`, no leading zero but for zero itself; a negative number
is `-` and the numeral of its opposite. -/
def Obligations.NumeralIsTheDecimalFormOfTheSeed : Prop :=
  (∀ n : Nat,
    (∀ b ∈ decNumeral n, 0x30 ≤ b.toNat ∧ b.toNat ≤ 0x39)
    ∧ (decNumeral n).foldl (fun v b => v * 10 + (b.toNat - 0x30)) 0 = n
    ∧ (n ≠ 0 → (decNumeral n).head? ≠ some 0x30#8)
    ∧ (n = 0 → decNumeral n = [0x30#8]))
  ∧ (∀ n : Int, n < 0 → decNumeral n = 0x2D#8 :: decNumeral (-n))

/-- R353: the seed's numeral and the tag are joined without a separator, so seed 1 with tag `2x` and seed 12 with tag `x` hash
the same characters. -/
def Obligations.NumeralAndTagCanAlias : Prop :=
  hashInput 1 [0x32#8, 0x78#8] = hashInput 12 [0x78#8]

/-- R143, in plain arithmetic: one character is XORed into both accumulators, and then each is multiplied modulo 2^32 by its
own constant; the accumulators start at 0xDEADBEEF and 0x41C6CE57, take the characters in order, and end in the finalizer. -/
def Obligations.HashXorsThenMultipliesEachCharacter : Prop :=
  (∀ (h1 h2 : Word) (c : Byte),
    (hashChar (h1, h2) c).1.toNat = (h1.toNat ^^^ c.toNat) * 2654435761 % 2 ^ 32
    ∧ (hashChar (h1, h2) c).2.toNat = (h2.toNat ^^^ c.toNat) * 1597334677 % 2 ^ 32)
  ∧ hashAcc [] = (0xDEADBEEF#32, 0x41C6CE57#32)
  ∧ (∀ (cs : List Byte) (c : Byte), hashAcc (cs ++ [c]) = hashChar (hashAcc cs) c)
  ∧ (∀ (cfg : Cfg) (cs : List Byte), hash2 cfg cs = cfg.final (hashAcc cs).1 (hashAcc cs).2)

/-- R145, in plain arithmetic: one update of the xorshift word is `x ^= x << 13; x ^= x >> 17; x ^= x << 5`, the bits shifted out
of 32 lost. -/
def Obligations.XorshiftShiftsLeft13Right17Left5 : Prop :=
  ∀ x : Word, ∃ a b : Nat,
    a = x.toNat ^^^ (x.toNat * 2 ^ 13 % 2 ^ 32) ∧ b = a ^^^ (a / 2 ^ 17)
    ∧ (xorshift x).toNat = b ^^^ (b * 2 ^ 5 % 2 ^ 32)

/-- R145: a seed that is 0 modulo 2^32 is not replaced: the xorshift word stays 0 and `w[i] = h1 + h2 * i`. -/
def Obligations.ZeroXorshiftSeedGivesTheBareIncrements : Prop :=
  ∀ (seed : Qword) (h1 h2 : Word) (i : Nat), seed.toNat % 2 ^ 32 = 0 →
    rawWord seed h1 h2 i = h1 + h2 * BitVec.ofNat 32 i

/-- R147, R149: entry i of the schedule is made of `t_i = (zl[i] (*) 977.0) (+) (i*7 + 13)`, each operation rounded, where `zl`
is the three zetas, their mean `((z0 (+) z1) (+) z2) (/) 3.0` and the four values of `ZAFF`. The constants are written as
their binary64 patterns. -/
def Obligations.ScheduleIsMadeOfTheZetaList : Prop :=
  ∀ (cfg : Cfg) (z : Zetas),
    let mean : F64 := f64Div (f64Add (f64Add z.z0 z.z1) z.z2) 0x4008000000000000#64
    let t : F64 → F64 → F64 := fun zl c => f64Add (f64Mul zl 0x408E880000000000#64) c
    let a := cfg.zaff z
    schedArgs cfg z
      = ⟨t z.z0 0x402A000000000000#64, t z.z1 0x4034000000000000#64, t z.z2 0x403B000000000000#64,
         t mean 0x4041000000000000#64, t a.1 0x4044800000000000#64, t a.2.1 0x4048000000000000#64,
         t a.2.2.1 0x404B800000000000#64, t a.2.2.2 0x404F000000000000#64⟩
    ∧ octList (schedule cfg z) = (octList (schedArgs cfg z)).map schedEntry
    ∧ (schedFinite cfg z = true ↔ ∀ x ∈ octList (schedArgs cfg z), f64Finite x = true)

/-- R149: an entry of the schedule is `floor(|t|) mod 31` of the number that `t` stands for, with 0 replaced by 1, and so is in
[1,30]. -/
def Obligations.ScheduleEntryIsTheFloorModulo31 : Prop :=
  ∀ (t : F64) (x : ℚ), f64Rat t = some x →
    (⌊|x|⌋ % 31 ≠ 0 → ((schedEntry t).toNat : Int) = ⌊|x|⌋ % 31)
    ∧ (⌊|x|⌋ % 31 = 0 → (schedEntry t).toNat = 1)
    ∧ rotLegal (schedEntry t) = true

/-- R140, R141, R145, R146, R150: PINIT with a positive round count completes: with all eight `t_i` finite it installs the
expanded and warmed-up unit, whatever the unit held before (R345); with one that is not finite it answers ValidationError and
changes no unit. The schedule's finiteness is a case and not a premise, because `ZAFF` is open (log entry 2). -/
def Obligations.PinitInstallsTheExpandedUnit : Prop :=
  ∀ (seed : Qword) (rounds : Option Word) (zetas : Option Zetas) (tag : Option (List Byte)) (s : State),
    let n : Word := match rounds with | none => 3#32 | some v => v
    let z : Zetas := match zetas with | none => zetasDefault | some v => v
    let d : List Byte := match tag with | none => Config.CFG.domainP.toList | some v => v
    let acc := (decNumeral seed.toInt ++ d).foldl hashChar (0xDEADBEEF#32, 0x41C6CE57#32)
    let h := Config.CFG.final acc.1 acc.2
    let w : Nat → Word := fun i =>
      xorshift^[i + 1] (BitVec.ofInt 32 seed.toInt) + h.1 + h.2 * BitVec.ofNat 32 i
    let k : Oct Word := octXor ⟨w 8, w 9, w 10, w 11, w 12, w 13, w 14, w 15⟩ Config.CFG.keyBase
    let r := schedule Config.CFG z
    n ≠ 0#32 →
      exec (.pinit seed rounds zetas tag) s = .next
        (if schedFinite Config.CFG z = true then
          { s with
            pUnit := some
              { s := (permStep k r)^[10] ⟨w 0, w 1, w 2, w 3, w 4, w 5, w 6, w 7⟩, k := k, r := r, rounds := n }
            rsp := s.rsp ++ [0x10000000#32] }
        else { s with rsp := s.rsp ++ [0x10030000#32] })

/-- R140, R141 for EVERY configuration: with a positive round count and a finite schedule, PINIT makes the unit ready with the
expanded state, and its success response is the header alone. `exec` of PINIT is this function at `Config.CFG`. -/
def Obligations.PinitSucceedsUnderEveryConfiguration : Prop :=
  ∀ (cfg : Cfg) (seed : Qword) (n : Word) (z : Zetas) (tag : List Byte) (s : State),
    n ≠ 0#32 → schedFinite cfg z = true →
    pinitWith cfg seed (some n) (some z) (some tag) s
      = { s with pUnit := some (expandP cfg seed n z tag), rsp := s.rsp ++ [0x10000000#32] }
    ∧ (expandP cfg seed n z tag).legal = true
    ∧ exec (.pinit seed (some n) (some z) (some tag)) s
        = .next (pinitWith Config.CFG seed (some n) (some z) (some tag) s)

/-- R141: a round count of 0, or one of the eight `t_i` that is a NaN or an infinity, which includes every NaN or infinite
zeta, is refused with ValidationError and changes no unit: a failed INIT leaves the old generator in place (R345). -/
def Obligations.PinitRefusesZeroRoundsAndNonFiniteZetas : Prop :=
  ∀ (seed : Qword) (rounds : Option Word) (z : Zetas) (tag : Option (List Byte)) (s : State),
    rounds = some 0#32 ∨ (∃ x ∈ octList (schedArgs Config.CFG z), f64Finite x = false)
      ∨ f64Finite z.z0 = false ∨ f64Finite z.z1 = false ∨ f64Finite z.z2 = false →
    exec (.pinit seed rounds (some z) tag) s = .next { s with rsp := s.rsp ++ [0x10030000#32] }

/-- R103: leaving an operand out is giving its default, in PINIT and in CINIT, for every choice of the operands left out. -/
def Obligations.LeftOutOperandsTakeTheirDefaults : Prop :=
  ∀ (pseed : Qword) (cseed : Option Qword) (rounds : Option Word) (zetas : Option Zetas) (tag : Option (List Byte))
    (s : State),
    exec (.pinit pseed rounds zetas tag) s
      = exec (.pinit pseed (some (rounds.getD 3))
          (some (zetas.getD ⟨0x3FF95C28F5C28F5C#64, 0x3FFED0E560418937#64, 0x3FF43126E978D4FE#64⟩))
          (some (tag.getD Config.CFG.domainP.toList))) s
    ∧ exec (.cinit cseed rounds tag) s
      = exec (.cinit (some (cseed.getD 42)) (some (rounds.getD 6)) (some (tag.getD Config.CFG.domainC.toList))) s

/-- R152, R178: the DROP commands always succeed and leave their unit Unconstructed. -/
def Obligations.DropLeavesTheUnitUnconstructed : Prop :=
  ∀ s : State,
    exec .pdrop s = .next { s with pUnit := none, rsp := s.rsp ++ [0x1F000000#32] }
    ∧ exec .cdrop s = .next { s with cUnit := none, rsp := s.rsp ++ [0x2F000000#32] }

/-! ## Draws of the P-unit -/

/-- R198, R199: PNEXT32 on a ready unit runs `p_rounds` steps and answers `s0 ^ rotl(s4, 13)` of the state they leave. -/
def Obligations.Pnext32AdvancesOnceAndReturnsTheWord : Prop :=
  ∀ (s : State) (u : PermState), s.pUnit = some u →
    exec .pnext32 s = .next
      (let v := (permStep u.k u.r)^[u.rounds.toNat] u.s
       { s with pUnit := some { u with s := v }, rsp := s.rsp ++ [0x11000000#32, v.x0 ^^^ rotl32 v.x4 13] })

/-- R252, R253: PNEXTF advances once and answers the two words, most significant first, of a binary64 datum that is exactly the
word divided by 2^32, its sign bit clear, so at least 0 and below 1. -/
def Obligations.PnextfReturnsTheExactQuotient : Prop :=
  ∀ (s : State) (u : PermState), s.pUnit = some u →
    ∃ hi lo : Word,
      exec .pnextf s = .next { s with pUnit := some (pAfter u 1), rsp := s.rsp ++ [0x12000000#32, hi, lo] }
      ∧ f64Rat (hi ++ lo) = some ((pWord u 0).toNat / 2 ^ 32 : ℚ) ∧ hi.msb = false
      ∧ (0 : ℚ) ≤ (pWord u 0).toNat / 2 ^ 32 ∧ ((pWord u 0).toNat / 2 ^ 32 : ℚ) ≤ 1 - 1 / 2 ^ 32

/-- R254, R261: PRANGE on a ready unit with `lo <= hi` advances once and answers `lo + (w mod (hi - lo + 1))`, which lies in
[lo, hi], as two words, most significant first. -/
def Obligations.PrangeReturnsAValueInTheInclusiveRange : Prop :=
  ∀ (s : State) (u : PermState) (lo hi : Dword), s.pUnit = some u → lo.toInt ≤ hi.toInt →
    ∃ a b : Word,
      exec (.prange lo hi) s = .next { s with pUnit := some (pAfter u 1), rsp := s.rsp ++ [0x13000000#32, a, b] }
      ∧ (a ++ b : Dword).toInt = lo.toInt + ((pWord u 0).toNat : Int) % (hi.toInt - lo.toInt + 1)
      ∧ lo.toInt ≤ (a ++ b : Dword).toInt ∧ (a ++ b : Dword).toInt ≤ hi.toInt

/-- R256: PBATCH with `n >= 0` on a ready unit advances n times and answers the n words in order; n = 0 answers the header
alone and does not advance. -/
def Obligations.PbatchReturnsTheNextWordsInOrder : Prop :=
  ∀ (s : State) (u : PermState) (n : Dword), s.pUnit = some u → 0 ≤ n.toInt →
    exec (.pbatch n) s = .next
      { s with pUnit := some (pAfter u n.toNat), rsp := s.rsp ++ (0x14000000#32 :: wordsOf n.toNat (pWord u)) }

/-- R256, R348: PBATCH n leaves the unit that n PNEXT32 commands leave, and its words are the words of their n responses, in the
same order. -/
def Obligations.PbatchIsRepeatedPnext32 : Prop :=
  ∀ (n : Nat) (s : State) (u : PermState), n < 2 ^ 63 → s.pUnit = some u → s.cmd = [] →
    ∃ (t t' : State) (ws : List Word),
      exec (.pbatch (BitVec.ofNat 64 n)) s = .next t
      ∧ Host.Core.run Sys2Proof.core n (hostAppend (List.replicate n 0x11000000#32) s) = .next t'
      ∧ t.pUnit = t'.pUnit ∧ ws.length = n
      ∧ t.rsp = s.rsp ++ (0x14000000#32 :: ws)
      ∧ t'.rsp = s.rsp ++ ws.flatMap (fun w => [0x11000000#32, w])

/-! ## Seed expansion of the C-unit -/

/-- R170 to R176: CINIT with a seed in the signed 64-bit range and a positive round count completes: the key is the first 8
little-endian words of the digest of the tag and the big-endian seed, the mixed key is the key XOR the key base, and the counter
is 0, whatever the unit held before (R345). The message is written out: byte j of the seed is `v / 2^(56 - 8j) mod 2^8` of its
64-bit two's complement (R73). -/
def Obligations.CinitInstallsTheDigestKey : Prop :=
  ∀ (seed : Option Qword) (rounds : Option Word) (tag : Option (List Byte)) (s : State),
    let v : Int := match seed with | none => 42 | some q => q.toInt
    let n : Word := match rounds with | none => 6#32 | some w => w
    let d : List Byte := match tag with | none => Config.CFG.domainC.toList | some t => t
    let seedBytes : List Byte := (List.range 8).map (fun j => BitVec.ofNat 8 ((v % 2 ^ 64).toNat / 2 ^ (56 - 8 * j) % 2 ^ 8))
    let dig := Config.CFG.digest512 (d ++ seedBytes)
    n ≠ 0#32 → -(2 ^ 63) ≤ v → v ≤ 2 ^ 63 - 1 →
    ∃ key : Oct Word,
      exec (.cinit seed rounds tag) s = .next
        { s with
          cUnit := some { key := key, kmix := octXor key Config.CFG.keyBase, ctr := 0#64, rounds := n }
          rsp := s.rsp ++ [0x20000000#32] }
      ∧ ∀ j : Nat, j < 8 →
        (octAt key j).toNat = (dig.toList.getD (4 * j) 0).toNat + 2 ^ 8 * (dig.toList.getD (4 * j + 1) 0).toNat
          + 2 ^ 16 * (dig.toList.getD (4 * j + 2) 0).toNat + 2 ^ 24 * (dig.toList.getD (4 * j + 3) 0).toNat

/-- R171: a seed outside -2^63 to 2^63 - 1 is refused with EncodingError, also with a round count of 0, and the C-unit is
exactly what it was; a seed inside is not; and in operand terms it is inside exactly when words 0 and 1 and bit 31 of word
2, the 65 high bits, are copies of one bit. -/
def Obligations.CinitRefusesSeedsOutsideSixtyFourBits : Prop :=
  ∀ (seed : Qword) (rounds : Option Word) (tag : Option (List Byte)) (s : State),
    (seed.toInt < -(2 ^ 63) ∨ 2 ^ 63 - 1 < seed.toInt →
      exec (.cinit (some seed) rounds tag) s = .next { s with rsp := s.rsp ++ [0x20010000#32] })
    ∧ (-(2 ^ 63) ≤ seed.toInt ∧ seed.toInt ≤ 2 ^ 63 - 1 →
      exec (.cinit (some seed) rounds tag) s ≠ .next { s with rsp := s.rsp ++ [0x20010000#32] })
    ∧ (-(2 ^ 63) ≤ seed.toInt ∧ seed.toInt ≤ 2 ^ 63 - 1 ↔
      seed.toNat / 2 ^ 63 = 0 ∨ seed.toNat / 2 ^ 63 = 2 ^ 65 - 1)

/-- R172: with a seed in range, a round count of 0 is refused with ValidationError and changes no unit. -/
def Obligations.CinitRefusesZeroRounds : Prop :=
  ∀ (seed : Qword) (tag : Option (List Byte)) (s : State),
    -(2 ^ 63) ≤ seed.toInt → seed.toInt ≤ 2 ^ 63 - 1 →
    exec (.cinit (some seed) (some 0#32) tag) s = .next { s with rsp := s.rsp ++ [0x20030000#32] }

/-- R177 (c): two different pairs of tag and seed have different digest messages. -/
def Obligations.DigestMessageDeterminesTagAndSeed : Prop :=
  ∀ (a b : Int) (t t' : List Byte),
    -(2 ^ 63) ≤ a → a ≤ 2 ^ 63 - 1 → -(2 ^ 63) ≤ b → b ≤ 2 ^ 63 - 1 →
    digestMsg a t = digestMsg b t' → a = b ∧ t = t'

/-! ## Blocks and requests of the C-unit -/

/-- R224: one round, each word of the result in terms of the words before it, with the words after the pairs and after the cross
coupling named. -/
def Obligations.RoundIsThePairsCrossAndFold : Prop :=
  ∀ (m b : Oct Word), ∃ p1 p3 p5 p7 c1 c3 : Word,
    p1 = b.x1 ^^^ rotl32 (b.x0 + m.x0) 13 ∧ p3 = b.x3 ^^^ rotl32 (b.x2 + m.x2) 11
    ∧ p5 = b.x5 ^^^ rotl32 (b.x4 + m.x4) 19 ∧ p7 = b.x7 ^^^ rotl32 (b.x6 + m.x6) 29
    ∧ c1 = p1 ^^^ rotl32 p5 13 ∧ c3 = p3 ^^^ rotl32 p7 7
    ∧ (blockRound m b).x5 = p5 ^^^ rotl32 c1 11 ∧ (blockRound m b).x7 = p7 ^^^ rotl32 c3 17
    ∧ (blockRound m b).x4 = b.x4 + m.x4 ∧ (blockRound m b).x6 = b.x6 + m.x6
    ∧ (blockRound m b).x0 = (b.x0 + m.x0) ^^^ rotl32 (blockRound m b).x4 13
    ∧ (blockRound m b).x1 = c1 ^^^ rotl32 (blockRound m b).x5 19
    ∧ (blockRound m b).x2 = (b.x2 + m.x2) ^^^ rotl32 (blockRound m b).x6 7
    ∧ (blockRound m b).x3 = c3 ^^^ rotl32 (blockRound m b).x7 23

/-- R221, R222, R223, R227 (and R75 for the halves): a block is the key, with the counter's low half added to word 0 and its
high half to word 1, after exactly `n` rounds under the mixed key; and R226, R228: `block` returns it and advances the
counter by 1 modulo 2^64. -/
def Obligations.BlockIsTheKeyedCounterAfterTheRounds : Prop :=
  (∀ (key kmix : Oct Word) (n : Word) (c : Dword),
    blockFn key kmix n c
      = (blockRound kmix)^[n.toNat]
        ⟨key.x0 + BitVec.ofNat 32 (c.toNat % 2 ^ 32), key.x1 + BitVec.ofNat 32 (c.toNat / 2 ^ 32),
         key.x2, key.x3, key.x4, key.x5, key.x6, key.x7⟩)
  ∧ (∀ u : CtrState,
    (block u).1 = blockFn u.key u.kmix u.rounds u.ctr
    ∧ (block u).2.ctr.toNat = (u.ctr.toNat + 1) % 2 ^ 64
    ∧ (block u).2.key = u.key ∧ (block u).2.kmix = u.kmix ∧ (block u).2.rounds = u.rounds)

/-- R229: words 2, 3, 4, 6 and 7 of a block do not depend on the counter, for every key, mixed key and round count. -/
def Obligations.FiveBlockWordsIgnoreTheCounter : Prop :=
  ∀ (key kmix : Oct Word) (n : Word) (c d : Dword),
    (blockFn key kmix n c).x2 = (blockFn key kmix n d).x2 ∧ (blockFn key kmix n c).x3 = (blockFn key kmix n d).x3
    ∧ (blockFn key kmix n c).x4 = (blockFn key kmix n d).x4 ∧ (blockFn key kmix n c).x6 = (blockFn key kmix n d).x6
    ∧ (blockFn key kmix n c).x7 = (blockFn key kmix n d).x7

/-- R230, R231: CWORDS with `n >= 0` on a ready unit answers the first n words of the blocks from the current counter on, and
advances the counter by ceil(n / 8) modulo 2^64; n = 0 answers the header alone. -/
def Obligations.CwordsReturnsTheFirstWordsOfFreshBlocks : Prop :=
  ∀ (s : State) (u : CtrState) (n : Dword), s.cUnit = some u → 0 ≤ n.toInt →
    exec (.cwords n) s = .next
      { s with
        cUnit := some (cAfter u ((n.toNat + 7) / 8))
        rsp := s.rsp ++ (0x21000000#32 :: wordsOf n.toNat (cWord u)) }

/-- R230, R350: requests whose counts are multiples of 8 concatenate with the request after them. -/
def Obligations.MultiplesOfEightConcatenate : Prop :=
  ∀ (q n : Nat) (u : CtrState),
    (request (8 * q) u).1 ++ (request n (request (8 * q) u).2).1 = (request (8 * q + n) u).1
    ∧ (request n (request (8 * q) u).2).2 = (request (8 * q + n) u).2

/-- R351: after 2^64 blocks the counter is where it was, and the block sequence repeats. -/
def Obligations.CounterWrapsAfterAllBlocks : Prop :=
  ∀ u : CtrState, (blocks (2 ^ 64) u).2 = u ∧ ∀ j : Nat, cWord u (j + 8 * 2 ^ 64) = cWord u j

/-! ## The output layer of the C-unit -/

/-- R257, R259: the binary32 datum of a word is the quotient by 2^32 rounded toward zero: it is finite, not above the quotient, and
no datum lies between the two; it is at most 1 - 2^-24. -/
def Obligations.WordToFloat32TruncatesTheQuotient : Prop :=
  ∀ w : Word, ∃ q : ℚ, f32Rat (wordToF32 w) = some q
    ∧ 0 ≤ q ∧ q ≤ (w.toNat : ℚ) / 2 ^ 32 ∧ q ≤ 1 - 1 / 2 ^ 24
    ∧ ∀ (y : F32) (p : ℚ), f32Rat y = some p → p ≤ (w.toNat : ℚ) / 2 ^ 32 → p ≤ q

/-- R258, R259: CUNIF with `n >= 0` on a ready unit answers n binary32 data, element j made of word j of the request by
truncation; each is at least 0 and at most 1 - 2^-24, its sign bit clear, and is 0 or at least 2^-32. -/
def Obligations.CunifReturnsTruncatedUniforms : Prop :=
  ∀ (s : State) (u : CtrState) (n : Dword), s.cUnit = some u → 0 ≤ n.toInt →
    exec (.cunif n) s = .next
      { s with
        cUnit := some (cAfter u ((n.toNat + 7) / 8))
        rsp := s.rsp ++ (0x22000000#32 :: wordsOf n.toNat (fun j => wordToF32 (cWord u j))) }
    ∧ ∀ j : Nat, ∃ q : ℚ, f32Rat (wordToF32 (cWord u j)) = some q ∧ 0 ≤ q ∧ q ≤ 1 - 1 / 2 ^ 24
        ∧ (q = 0 ∨ 1 / 2 ^ 32 ≤ q) ∧ (wordToF32 (cWord u j)).msb = false

/-- R260, R261: CRANDI with `low < high` and `n >= 0` on a ready unit answers n integers, two words each, most significant first;
element j is `low + (word j mod (high - low))`, which lies in [low, high). -/
def Obligations.CrandiReturnsValuesInTheHalfOpenRange : Prop :=
  ∀ (s : State) (u : CtrState) (low high n : Dword), s.cUnit = some u → low.toInt < high.toInt → 0 ≤ n.toInt →
    ∃ e : Nat → Dword,
      exec (.crandi low high n) s = .next
        { s with
          cUnit := some (cAfter u ((n.toNat + 7) / 8))
          rsp := s.rsp ++ (0x23000000#32 ::
            (wordsOf n.toNat e).flatMap (fun d => [d.extractLsb' 32 32, d.extractLsb' 0 32])) }
      ∧ ∀ j : Nat, (e j).toInt = low.toInt + ((cWord u j).toNat : Int) % (high.toInt - low.toInt)
          ∧ low.toInt ≤ (e j).toInt ∧ (e j).toInt < high.toInt

/-- R262: CRANDN with `n >= 0` on a ready unit makes two separate requests of n words: element j is `NUM.bm32` of word j of the first
and word j of the second, which starts at a fresh block; the counter advances by 2 * ceil(n / 8). -/
def Obligations.CrandnPairsTwoRequests : Prop :=
  ∀ (s : State) (u : CtrState) (n : Dword), s.cUnit = some u → 0 ≤ n.toInt →
    exec (.crandn n) s = .next
      (let q := (n.toNat + 7) / 8
       { s with
         cUnit := some (cAfter u (2 * q))
         rsp := s.rsp ++ (0x24000000#32 :: wordsOf n.toNat (fun j =>
           Config.CFG.bm32 (wordToF32 (cWord u j)) (wordToF32 (cWord (cAfter u q) j)))) })

/-- R263: for every configuration with NUM_FINITE, every element that CRANDN answers is a finite binary32. -/
def Obligations.NumFiniteMakesNormalsFinite : Prop :=
  ∀ (cfg : Cfg) (s : State) (u : CtrState) (n : Dword), NumFinite cfg → s.cUnit = some u → 0 ≤ n.toInt →
    ∃ ys : List F32, (crandnWith cfg n s).rsp = s.rsp ++ (0x24000000#32 :: ys)
      ∧ ys.length = n.toNat ∧ ∀ y ∈ ys, f32Finite y = true

/-- R263 on the real-valued formula: the clamp raises the first uniform exactly when its word is 0, and the value never exceeds
`sqrt(-2 * ln(10^-12))` in magnitude, which is its value at (0, 0). -/
def Obligations.BoxMullerClampsTheZeroWordOnly : Prop :=
  (∀ w : Word, ∃ q : ℚ, f32Rat (wordToF32 w) = some q
    ∧ (w = 0#32 → q < u1Min) ∧ (w ≠ 0#32 → u1Min < q))
  ∧ u1Min = 1 / 1000000000000
  ∧ (∀ u1 u2 y : ℝ, 0 ≤ u1 → u1 < 1 → IsBmReal u1 u2 y → |y| ≤ Real.sqrt (-2 * Real.log (1 / 1000000000000)))
  ∧ IsBmReal 0 0 (Real.sqrt (-2 * Real.log (1 / 1000000000000)))

/-! ## Errors -/

/-- R304, R308: a draw command on an Unconstructed unit answers NotReady, whatever its operands, and changes no unit; INIT and
DROP commands never answer it. -/
def Obligations.DrawsOnAnUnconstructedUnitAreNotReady : Prop :=
  ∀ (s : State) (a b c : Dword),
    (s.pUnit = none →
      exec .pnext32 s = .next { s with rsp := s.rsp ++ [0x11040000#32] }
      ∧ exec .pnextf s = .next { s with rsp := s.rsp ++ [0x12040000#32] }
      ∧ exec (.prange a b) s = .next { s with rsp := s.rsp ++ [0x13040000#32] }
      ∧ exec (.pbatch a) s = .next { s with rsp := s.rsp ++ [0x14040000#32] })
    ∧ (s.cUnit = none →
      exec (.cwords a) s = .next { s with rsp := s.rsp ++ [0x21040000#32] }
      ∧ exec (.cunif a) s = .next { s with rsp := s.rsp ++ [0x22040000#32] }
      ∧ exec (.crandi a b c) s = .next { s with rsp := s.rsp ++ [0x23040000#32] }
      ∧ exec (.crandn a) s = .next { s with rsp := s.rsp ++ [0x24040000#32] })
    ∧ (∀ (i : Instr) (t : State), i.opcode ∈ [.pinit, .pdrop, .cinit, .cdrop] → exec i s = .next t →
      t.rsp ≠ s.rsp ++ [errorWord i.opcode.byte.toNat 4])

/-- R302, R306, R308: an empty range answers DomainError, before any word is drawn and before the count is looked at: `hi < lo` for
PRANGE, `high <= low` for CRANDI. A range that is not empty does not, so `hi = lo` is legal for PRANGE. -/
def Obligations.EmptyRangesAreDomainErrors : Prop :=
  ∀ (s : State) (lo hi n : Dword),
    (s.pUnit ≠ none → hi.toInt < lo.toInt →
      exec (.prange lo hi) s = .next { s with rsp := s.rsp ++ [0x13020000#32] })
    ∧ (s.cUnit ≠ none → hi.toInt ≤ lo.toInt →
      exec (.crandi lo hi n) s = .next { s with rsp := s.rsp ++ [0x23020000#32] })
    ∧ (lo.toInt ≤ hi.toInt → exec (.prange lo hi) s ≠ .next { s with rsp := s.rsp ++ [0x13020000#32] })
    ∧ (lo.toInt < hi.toInt → exec (.crandi lo hi n) s ≠ .next { s with rsp := s.rsp ++ [0x23020000#32] })

/-- R303, R306: a negative count answers ValidationError and draws nothing. -/
def Obligations.NegativeCountsAreValidationErrors : Prop :=
  ∀ (s : State) (low high n : Dword), n.toInt < 0 →
    (s.pUnit ≠ none → exec (.pbatch n) s = .next { s with rsp := s.rsp ++ [0x14030000#32] })
    ∧ (s.cUnit ≠ none →
      exec (.cwords n) s = .next { s with rsp := s.rsp ++ [0x21030000#32] }
      ∧ exec (.cunif n) s = .next { s with rsp := s.rsp ++ [0x22030000#32] }
      ∧ exec (.crandn n) s = .next { s with rsp := s.rsp ++ [0x24030000#32] }
      ∧ (low.toInt < high.toInt →
          exec (.crandi low high n) s = .next { s with rsp := s.rsp ++ [0x23030000#32] }))

/-! ## The host's front end -/

/-- R126, R251: a shape with a negative extent is refused by the host itself, in `uniform`, `randn` and `randint`, here whatever the
bounds are; any other shape whose product fits a count operand is the command with that product, 1 for the empty shape, and
with the bounds, where they fit theirs. -/
def Obligations.ShapesBecomeElementCounts : Prop :=
  ∀ shape : List Int,
    ((∃ e ∈ shape, e < 0) →
      expandCall (.uniform shape) = .error .validationError ∧ expandCall (.randn shape) = .error .validationError
      ∧ ∀ low high : Int, expandCall (.randint low high shape) = .error .validationError)
    ∧ ((∀ e ∈ shape, 0 ≤ e) → shape.prod < 2 ^ 63 →
        ∃ n : Dword, n.toInt = shape.prod ∧ expandCall (.uniform shape) = .ok (.cunif n)
          ∧ expandCall (.randn shape) = .ok (.crandn n)
          ∧ ∀ low high : Int, -(2 ^ 63) ≤ low → low < 2 ^ 63 → -(2 ^ 63) ≤ high → high < 2 ^ 63 →
            ∃ a b : Dword, a.toInt = low ∧ b.toInt = high ∧ expandCall (.randint low high shape) = .ok (.crandi a b n))
end

