-- ==== Sys2Proof/Laws/Decode.lean ====
section
/-! SUPPORT. Laws/Decode.lean: the header's fields in plain arithmetic, the fields of a header that the encoder makes, the
words of operands read back, and tags packed and unpacked. -/

namespace Sys2Proof

/-! ## Appending words -/

/-- Appending two bit patterns is a sum in plain arithmetic. -/
theorem toNat_append_add {m n : Nat} (a : BitVec m) (b : BitVec n) :
    (a ++ b).toNat = a.toNat * 2 ^ n + b.toNat := by
  rw [BitVec.toNat_append, ← Nat.shiftLeft_add_eq_or_of_lt b.isLt, Nat.shiftLeft_eq]

/-! ## Header fields as numbers -/

theorem hdrOpc_toNat (h : Word) : (hdrOpc h).toNat = h.toNat / 2 ^ 24 := by
  have := h.isLt
  simp only [hdrOpc, BitVec.extractLsb'_toNat, Nat.shiftRight_eq_div_pow]
  omega

theorem hdrRsv_toNat (h : Word) : (hdrRsv h).toNat = h.toNat / 2 ^ 16 % 2 ^ 4 := by
  simp only [hdrRsv, BitVec.extractLsb'_toNat, Nat.shiftRight_eq_div_pow]

theorem hdrDlen_eq (h : Word) : hdrDlen h = h.toNat % 2 ^ 16 := by
  simp only [hdrDlen, BitVec.extractLsb'_toNat, Nat.shiftRight_zero]

theorem hdrLow_toNat (h : Word) : (hdrLow h).toNat = h.toNat % 2 ^ 24 := by
  simp only [hdrLow, BitVec.extractLsb'_toNat, Nat.shiftRight_zero]

theorem hdrDD_eq (h : Word) : hdrDD h = h.toNat.testBit 23 := rfl
theorem hdrDR_eq (h : Word) : hdrDR h = h.toNat.testBit 22 := rfl
theorem hdrDZ_eq (h : Word) : hdrDZ h = h.toNat.testBit 21 := rfl
theorem hdrDS_eq (h : Word) : hdrDS h = h.toNat.testBit 20 := rfl

theorem hdrDlen_le (h : Word) : hdrDlen h ≤ dlenMax := by
  rw [hdrDlen_eq, dlenMax]
  omega

/-! ## Opcodes -/

theorem opcodeOf_byte (o : Opcode) : opcodeOf o.byte = some o := by
  cases o <;> decide

theorem opcodeOf_some {b : Byte} {o : Opcode} (h : opcodeOf b = some o) : b = o.byte := by
  have := List.find?_some h
  simpa using (beq_iff_eq.mp this).symm

/-! ## The headers that the encoder makes -/

theorem mkHeader_toNat (o : Opcode) (dd dr dz ds : Bool) (n : Nat) :
    (mkHeader o dd dr dz ds n).toNat
      = o.byte.toNat * 2 ^ 24 + dd.toNat * 2 ^ 23 + dr.toNat * 2 ^ 22 + dz.toNat * 2 ^ 21 + ds.toNat * 2 ^ 20
        + n % 2 ^ 16 := by
  simp only [mkHeader, toNat_append_add, BitVec.toNat_ofBool, BitVec.toNat_ofNat]
  omega

theorem plainHeader_toNat (o : Opcode) : (plainHeader o).toNat = o.byte.toNat * 2 ^ 24 := by
  simp only [plainHeader, toNat_append_add, BitVec.toNat_ofNat]
  omega

section
variable (o : Opcode) (dd dr dz ds : Bool) (n : Nat)

@[simp] theorem hdrOpc_mkHeader : hdrOpc (mkHeader o dd dr dz ds n) = o.byte := by
  apply BitVec.eq_of_toNat_eq
  rw [hdrOpc_toNat, mkHeader_toNat]
  have h1 := dd.toNat_le; have h2 := dr.toNat_le; have h3 := dz.toNat_le; have h4 := ds.toNat_le
  omega

@[simp] theorem hdrRsv_mkHeader : hdrRsv (mkHeader o dd dr dz ds n) = 0#4 := by
  apply BitVec.eq_of_toNat_eq
  rw [hdrRsv_toNat, mkHeader_toNat]
  simp only [BitVec.toNat_ofNat]
  omega

@[simp] theorem hdrDlen_mkHeader : hdrDlen (mkHeader o dd dr dz ds n) = n % 2 ^ 16 := by
  rw [hdrDlen_eq, mkHeader_toNat]
  omega

@[simp] theorem hdrDD_mkHeader : hdrDD (mkHeader o dd dr dz ds n) = dd := by
  rw [hdrDD_eq, mkHeader_toNat, Nat.testBit_eq_decide_div_mod_eq]
  have h2 := dr.toNat_le; have h3 := dz.toNat_le; have h4 := ds.toNat_le
  cases dd <;> simp <;> omega

@[simp] theorem hdrDR_mkHeader : hdrDR (mkHeader o dd dr dz ds n) = dr := by
  rw [hdrDR_eq, mkHeader_toNat, Nat.testBit_eq_decide_div_mod_eq]
  have h3 := dz.toNat_le; have h4 := ds.toNat_le
  cases dr <;> simp <;> omega

@[simp] theorem hdrDZ_mkHeader : hdrDZ (mkHeader o dd dr dz ds n) = dz := by
  rw [hdrDZ_eq, mkHeader_toNat, Nat.testBit_eq_decide_div_mod_eq]
  have h4 := ds.toNat_le
  cases dz <;> simp <;> omega

@[simp] theorem hdrDS_mkHeader : hdrDS (mkHeader o dd dr dz ds n) = ds := by
  rw [hdrDS_eq, mkHeader_toNat, Nat.testBit_eq_decide_div_mod_eq]
  cases ds <;> simp <;> omega

@[simp] theorem hdrOpc_plainHeader : hdrOpc (plainHeader o) = o.byte := by
  apply BitVec.eq_of_toNat_eq
  rw [hdrOpc_toNat, plainHeader_toNat]
  omega

@[simp] theorem hdrLow_plainHeader : hdrLow (plainHeader o) = 0#24 := by
  apply BitVec.eq_of_toNat_eq
  rw [hdrLow_toNat, plainHeader_toNat]
  simp only [BitVec.toNat_ofNat]
  omega

/-- A plain header is legal for its opcode. -/
theorem checkHeader_plainHeader (h : o.format ≠ .I) : checkHeader (plainHeader o) = .ok o := by
  simp [checkHeader, opcodeOf_byte, h]

end

/-- An INIT header with its forbidden flags clear is legal. -/
theorem checkHeader_mkHeader (o : Opcode) (dd dr dz ds : Bool) (n : Nat) (hf : o.format = .I)
    (hs : o = .pinit → ds = false) (hz : o = .cinit → dz = false) (hd : dd = true → n % 2 ^ 16 = 0) :
    checkHeader (mkHeader o dd dr dz ds n) = .ok o := by
  have h1 : initHeaderIllegal o (mkHeader o dd dr dz ds n) = none := by
    simp only [initHeaderIllegal, hdrRsv_mkHeader, hdrDS_mkHeader, hdrDZ_mkHeader, hdrDD_mkHeader, hdrDlen_mkHeader]
    split_ifs <;> simp_all
  simp [checkHeader, opcodeOf_byte, hf, h1]

/-! ## Default tags -/

/-- A default tag is no longer than DLEN_MAX. -/
theorem DefaultTag.toList_length_le (t : DefaultTag) : t.toList.length ≤ dlenMax := by
  have := t.len.isLt
  simp only [DefaultTag.toList, Vector.length_toList]
  omega

/-- So a default tag can also be given as an operand. -/
theorem DefaultTag.fits (t : DefaultTag) : tagFits (some t.toList) = true := decide_eq_true t.toList_length_le

/-! ## Operands read back -/

@[simp] theorem optWords_none {α : Type} (f : α → List Word) : optWords f none = [] := rfl
@[simp] theorem optWords_some {α : Type} (f : α → List Word) (a : α) : optWords f (some a) = f a := rfl
@[simp] theorem tagLen_none : tagLen none = 0 := rfl
@[simp] theorem tagLen_some (t : List Byte) : tagLen (some t) = t.length := rfl

/-- A tag operand that fits has a length that DLEN carries whole. -/
theorem tagLen_lt {t : Option (List Byte)} (h : tagFits t = true) : tagLen t < 2 ^ 16 := by
  cases t with
  | none => simp
  | some t =>
    have h' : t.length ≤ 65535 := of_decide_eq_true h
    simp only [tagLen_some]
    omega

@[simp] theorem dwordWords_length (d : Dword) : (dwordWords d).length = 2 := rfl
@[simp] theorem qwordWords_length (q : Qword) : (qwordWords q).length = 4 := rfl
@[simp] theorem zetasWords_length (z : Zetas) : (zetasWords z).length = 6 := rfl

/-- The two words of a 64-bit value, put together. -/
theorem dword_join (d : Dword) : (d.extractLsb' 32 32 ++ d.extractLsb' 0 32 : Dword) = d := by
  apply BitVec.eq_of_toNat_eq
  have := d.isLt
  simp only [toNat_append_add, BitVec.extractLsb'_toNat, Nat.shiftRight_eq_div_pow]
  omega

/-- The four words of a 128-bit value, put together. -/
theorem qword_join (q : Qword) :
    (q.extractLsb' 96 32 ++ q.extractLsb' 64 32 ++ q.extractLsb' 32 32 ++ q.extractLsb' 0 32 : Qword) = q := by
  apply BitVec.eq_of_toNat_eq
  have := q.isLt
  simp only [toNat_append_add, BitVec.extractLsb'_toNat, Nat.shiftRight_eq_div_pow]
  omega

/-- The halves of two words put together are those words. -/
theorem dword_high (a b : Word) : (a ++ b : Dword).extractLsb' 32 32 = a := by
  apply BitVec.eq_of_toNat_eq
  have := a.isLt
  have := b.isLt
  simp only [toNat_append_add, BitVec.extractLsb'_toNat, Nat.shiftRight_eq_div_pow]
  omega

theorem dword_low (a b : Word) : (a ++ b : Dword).extractLsb' 0 32 = b := by
  apply BitVec.eq_of_toNat_eq
  have := a.isLt
  have := b.isLt
  simp only [toNat_append_add, BitVec.extractLsb'_toNat, Nat.shiftRight_eq_div_pow]
  omega

theorem dwordWords_append (a b : Word) : dwordWords (a ++ b : Dword) = [a, b] := by
  simp only [dwordWords, dword_high, dword_low]

theorem qwordWords_append (a b c d : Word) : qwordWords (a ++ b ++ c ++ d : Qword) = [a, b, c, d] := by
  have ha := a.isLt
  have hb := b.isLt
  have hc := c.isLt
  have hd := d.isLt
  simp only [qwordWords, List.cons.injEq, and_true]
  refine ⟨?_, ?_, ?_, ?_⟩ <;> apply BitVec.eq_of_toNat_eq <;>
    simp only [toNat_append_add, BitVec.extractLsb'_toNat, Nat.shiftRight_eq_div_pow] <;> omega

/-- Operand word `i`, in range, heads the words from `i` on. -/
theorem drop_eq_wordAt_cons (ops : List Word) (i : Nat) (h : i < ops.length) :
    ops.drop i = wordAt ops i :: ops.drop (i + 1) := by
  rw [List.drop_eq_getElem_cons h]
  simp [wordAt, List.getD_eq_getElem?_getD, h]

/-- The words from `i` on begin with the two words of the 64-bit value that stands there. -/
theorem drop_eq_dwordWords (ops : List Word) (i : Nat) (h : i + 2 ≤ ops.length) :
    ops.drop i = dwordWords (dwordAt ops i) ++ ops.drop (i + 2) := by
  rw [dwordAt, dwordWords_append, drop_eq_wordAt_cons ops i (by omega), drop_eq_wordAt_cons ops (i + 1) (by omega)]
  rfl

/-- The words from `i` on begin with the four words of the 128-bit value that stands there. -/
theorem drop_eq_qwordWords (ops : List Word) (i : Nat) (h : i + 4 ≤ ops.length) :
    ops.drop i = qwordWords (qwordAt ops i) ++ ops.drop (i + 4) := by
  rw [qwordAt, qwordWords_append, drop_eq_wordAt_cons ops i (by omega), drop_eq_wordAt_cons ops (i + 1) (by omega),
    drop_eq_wordAt_cons ops (i + 2) (by omega), drop_eq_wordAt_cons ops (i + 3) (by omega)]
  rfl

/-! ## Tags -/

/-- The four bytes of a word made of four bytes. -/
theorem wordBytes_append (a b c d : Byte) : wordBytes (a ++ b ++ c ++ d : Word) = [a, b, c, d] := by
  have ha := a.isLt
  have hb := b.isLt
  have hc := c.isLt
  have hd := d.isLt
  simp only [wordBytes, List.cons.injEq, and_true]
  refine ⟨?_, ?_, ?_, ?_⟩ <;> apply BitVec.eq_of_toNat_eq <;>
    simp only [toNat_append_add, BitVec.extractLsb'_toNat, Nat.shiftRight_eq_div_pow] <;> omega

/-- A word is its four bytes put together. -/
theorem word_join (w : Word) :
    (w.extractLsb' 24 8 ++ w.extractLsb' 16 8 ++ w.extractLsb' 8 8 ++ w.extractLsb' 0 8 : Word) = w := by
  apply BitVec.eq_of_toNat_eq
  have := w.isLt
  simp only [toNat_append_add, BitVec.extractLsb'_toNat, Nat.shiftRight_eq_div_pow]
  omega

/-- A packed tag takes `ceil(n/4)` words (R78). -/
theorem packTag_length (t : List Byte) : (packTag t).length = tagWordCount t.length := by
  induction t using packTag.induct with
  | case1 => rfl
  | case2 => simp [packTag, tagWordCount]
  | case3 => simp [packTag, tagWordCount]
  | case4 => simp [packTag, tagWordCount]
  | case5 a b c d t ih =>
    simp only [packTag, List.length_cons, ih, tagWordCount]
    omega

/-- Unpacking a packed tag gives the tag and then zero bytes only (R78, R112). -/
theorem packTag_bytes (t : List Byte) : ∃ k, (packTag t).flatMap wordBytes = t ++ List.replicate k 0#8 := by
  induction t using packTag.induct with
  | case1 => exact ⟨0, rfl⟩
  | case2 a => exact ⟨3, by simp [packTag, wordBytes_append, List.replicate]⟩
  | case3 a b => exact ⟨2, by simp [packTag, wordBytes_append, List.replicate]⟩
  | case4 a b c => exact ⟨1, by simp [packTag, wordBytes_append, List.replicate]⟩
  | case5 a b c d t ih =>
    obtain ⟨k, hk⟩ := ih
    exact ⟨k, by simp [packTag, wordBytes_append, hk]⟩

/-- The tag words of an encoder's tag operand take the words that R105 counts. -/
theorem optWords_packTag_length (t : Option (List Byte)) :
    (optWords packTag t).length = if t.isNone then 0 else tagWordCount (tagLen t) := by
  cases t with
  | none => simp
  | some t => simp [packTag_length]

/-- The tag operand of an encoded command is read back. -/
theorem readTag_packTag (h : Word) (t : Option (List Byte)) (hd : hdrDD h = t.isNone) (hl : hdrDlen h = tagLen t) :
    readTag h (optWords packTag t) = .ok t := by
  cases t with
  | none => simp [readTag, hd]
  | some t =>
    obtain ⟨k, hk⟩ := packTag_bytes t
    simp only [Option.isNone_some] at hd
    simp [readTag, hd, hl, hk]

theorem flatMap_wordBytes_length (ws : List Word) : (ws.flatMap wordBytes).length = 4 * ws.length := by
  induction ws with
  | nil => rfl
  | cons w ws ih =>
    simp only [List.flatMap_cons, List.length_append, ih, List.length_cons]
    simp only [wordBytes, List.length_cons, List.length_nil]
    omega

/-- Tag words whose bytes past the length are zero are the packing of their bytes up to the length. -/
theorem packTag_of_words (ws : List Word) (n : Nat) (hl : ws.length = tagWordCount n)
    (hz : ((ws.flatMap wordBytes).drop n).all (fun b => b == 0#8) = true) :
    packTag ((ws.flatMap wordBytes).take n) = ws := by
  induction ws generalizing n with
  | nil => simp [packTag]
  | cons w ws ih =>
    have hj := word_join w
    match n with
    | 0 => simp [tagWordCount] at hl
    | 1 =>
      obtain rfl : ws = [] := by simpa [tagWordCount] using hl
      simp only [wordBytes, List.flatMap_cons, List.flatMap_nil, List.append_nil, List.drop_succ_cons, List.drop_zero,
        List.all_cons, List.all_nil, Bool.and_true, Bool.and_eq_true, beq_iff_eq] at hz
      obtain ⟨h1, h2, h3⟩ := hz
      rw [h1, h2, h3] at hj
      simpa [wordBytes, packTag] using hj
    | 2 =>
      obtain rfl : ws = [] := by simpa [tagWordCount] using hl
      simp only [wordBytes, List.flatMap_cons, List.flatMap_nil, List.append_nil, List.drop_succ_cons, List.drop_zero,
        List.all_cons, List.all_nil, Bool.and_true, Bool.and_eq_true, beq_iff_eq] at hz
      obtain ⟨h1, h2⟩ := hz
      rw [h1, h2] at hj
      simpa [wordBytes, packTag] using hj
    | 3 =>
      obtain rfl : ws = [] := by simpa [tagWordCount] using hl
      simp only [wordBytes, List.flatMap_cons, List.flatMap_nil, List.append_nil, List.drop_succ_cons, List.drop_zero,
        List.all_cons, List.all_nil, Bool.and_true, beq_iff_eq] at hz
      rw [hz] at hj
      simpa [wordBytes, packTag] using hj
    | n + 4 =>
      have hl' : ws.length = tagWordCount n := by
        simp only [tagWordCount, List.length_cons] at hl ⊢
        omega
      have hz' : ((ws.flatMap wordBytes).drop n).all (fun b => b == 0#8) = true := by
        simpa [wordBytes] using hz
      simpa [wordBytes, packTag, hj] using ih n hl' hz'

/-! ## What a legal header says -/

theorem checkHeader_ok {h : Word} {o : Opcode} (hc : checkHeader h = .ok o) :
    hdrOpc h = o.byte ∧ (o.format = .I → initHeaderIllegal o h = none) ∧ (o.format ≠ .I → hdrLow h = 0#24) := by
  unfold checkHeader at hc
  split at hc
  · cases hc
  · rename_i o' ho
    have := opcodeOf_some ho
    split_ifs at hc with h1 h2
    · split at hc
      · cases hc
      · cases hc; simp_all
    · cases hc; simp_all

/-- A legal header outside the INIT formats is the encoder's. -/
theorem header_eq_plain {h : Word} {o : Opcode} (hc : checkHeader h = .ok o) (hf : o.format ≠ .I) : h = plainHeader o := by
  obtain ⟨h1, -, h3⟩ := checkHeader_ok hc
  have h3 := h3 hf
  have a := hdrOpc_toNat h
  have b := hdrLow_toNat h
  rw [h1] at a
  rw [h3, BitVec.toNat_ofNat] at b
  apply BitVec.eq_of_toNat_eq
  rw [plainHeader_toNat]
  omega

/-- A legal INIT header is the encoder's, made of its own fields; and its forbidden flags are clear. -/
theorem header_eq_mk {h : Word} {o : Opcode} (hc : checkHeader h = .ok o) (hf : o.format = .I) :
    h = mkHeader o (hdrDD h) (hdrDR h) (hdrDZ h) (hdrDS h) (hdrDlen h)
    ∧ (o = .pinit → hdrDS h = false) ∧ (o = .cinit → hdrDZ h = false) ∧ (hdrDD h = true → hdrDlen h = 0) := by
  obtain ⟨h1, h2, -⟩ := checkHeader_ok hc
  have h2 := h2 hf
  simp only [initHeaderIllegal] at h2
  split_ifs at h2 with a b c d
  refine ⟨?_, by simp_all, by simp_all, by simp_all⟩
  have e1 := hdrOpc_toNat h
  have e2 := hdrRsv_toNat h
  have e3 := hdrDlen_eq h
  simp only [ne_eq, not_not] at a
  rw [h1] at e1
  rw [a, BitVec.toNat_ofNat] at e2
  have hb : ∀ p : Prop, [Decidable p] → (decide p).toNat = if p then 1 else 0 := by
    intro p _
    split_ifs <;> simp_all
  apply BitVec.eq_of_toNat_eq
  rw [mkHeader_toNat, e1, e3]
  simp only [hdrDD_eq, hdrDR_eq, hdrDZ_eq, hdrDS_eq, Nat.testBit_eq_decide_div_mod_eq, hb]
  split_ifs <;> omega

/-! ## The decoder on a cut command -/

/-- What the decoder answers on a stream that begins with the words of one legal command, as its header counts them. -/
theorem decode_of_legal {h : Word} {o : Opcode} {ops : List Word} (rest : List Word) (hc : checkHeader h = .ok o)
    (hl : ops.length = legalLen o h - 1) :
    decode (h :: (ops ++ rest)) = match readOperands o h ops with
      | .error why => .illegal (hdrOpc h) why rest
      | .ok i => .command i rest := by
  have hn : cmdLen h - 1 = ops.length := by simp only [cmdLen, hc, hl]
  simp only [decode, hn, hc, List.take_left, List.drop_left]
  refine (if_neg (by simp)).trans ?_
  cases readOperands o h ops <;> rfl

/-- What the decoder answers on a stream that begins with an illegal header: that one word is taken (R111). -/
theorem decode_of_illegal {h : Word} {why : Illegal} (tail : List Word) (hc : checkHeader h = .error why) :
    decode (h :: tail) = .illegal (hdrOpc h) why tail := by
  simp [decode, cmdLen, hc]

/-- The decoder waits exactly while fewer words stand there than the header counts. -/
theorem decode_incomplete (h : Word) (tail : List Word) :
    decode (h :: tail) = .incomplete ↔ tail.length + 1 < cmdLen h := by
  simp only [decode]
  split_ifs with hlt
  · simp only [true_iff]
    omega
  · constructor
    · intro hd
      split at hd
      · cases hd
      · split at hd <;> cases hd
    · intro
      omega

end Sys2Proof
end

