-- ==== Sys2Proof/Laws/Binary64.lean ====
section
/-! SUPPORT. Laws/Binary64.lean: the two facts that the rounding of R13 rests on: how far the rounded integer is from the
quotient, and which number a sign and a magnitude stand for. -/

namespace Sys2Proof.Machine

/-- The rounded integer is within half a unit of `m / 2^sh`, and where it is exactly half a unit away it is even. -/
theorem roundShift_near (m sh : Nat) :
    2 * m ≤ 2 * (roundShift m sh * 2 ^ sh) + 2 ^ sh ∧ 2 * (roundShift m sh * 2 ^ sh) ≤ 2 * m + 2 ^ sh
    ∧ (2 * m = 2 * (roundShift m sh * 2 ^ sh) + 2 ^ sh ∨ 2 * (roundShift m sh * 2 ^ sh) = 2 * m + 2 ^ sh →
        roundShift m sh % 2 = 0) := by
  have hm := Nat.div_add_mod' m (2 ^ sh)
  have hr := Nat.mod_lt m (Nat.two_pow_pos sh)
  simp only [roundShift]
  generalize m / 2 ^ sh = q at *
  generalize m % 2 ^ sh = r at *
  generalize 2 ^ sh = p at *
  have hq := Nat.add_one_mul q p
  split_ifs <;> omega

section
variable (neg : Bool) (mag : Nat)

theorem signMag_toNat (h : mag < 2 ^ 63) :
    (BitVec.ofBool neg ++ BitVec.ofNat 63 mag : F64).toNat = neg.toNat * 2 ^ 63 + mag := by
  rw [toNat_append_add, BitVec.toNat_ofBool, BitVec.toNat_ofNat, Nat.mod_eq_of_lt h]

theorem signMag_msb (h : mag < 2 ^ 63) : (BitVec.ofBool neg ++ BitVec.ofNat 63 mag : F64).msb = neg := by
  rw [BitVec.msb_eq_decide, signMag_toNat neg mag h]
  cases neg
  · simp
    omega
  · simp

theorem signMag_exp (h : mag < 2 ^ 63) : f64Exp (BitVec.ofBool neg ++ BitVec.ofNat 63 mag) = mag / 2 ^ 52 := by
  have := neg.toNat_le
  simp only [f64Exp, BitVec.extractLsb'_toNat, Nat.shiftRight_eq_div_pow, signMag_toNat neg mag h]
  omega

theorem signMag_frac (h : mag < 2 ^ 63) : f64Frac (BitVec.ofBool neg ++ BitVec.ofNat 63 mag) = mag % 2 ^ 52 := by
  simp only [f64Frac, BitVec.extractLsb'_toNat, Nat.shiftRight_zero, signMag_toNat neg mag h]
  omega

/-- A magnitude below the infinity's reads as a finite datum: subnormal below `2^52`, normal from there on. -/
theorem f64Read_signMag (h : mag < 2047 * 2 ^ 52) :
    f64Read (BitVec.ofBool neg ++ BitVec.ofNat 63 mag)
      = if mag / 2 ^ 52 = 0 then .fin neg (mag % 2 ^ 52) (-1074)
        else .fin neg (2 ^ 52 + mag % 2 ^ 52) ((mag / 2 ^ 52 : Nat) - 1075) := by
  have h63 : mag < 2 ^ 63 := by omega
  simp only [f64Read, signMag_exp neg mag h63, signMag_frac neg mag h63, signMag_msb neg mag h63]
  rw [if_neg (by omega)]

end

end Sys2Proof.Machine
end

