-- ==== Sys2Proof/Laws/State.lean ====
section
/-! SUPPORT. Laws/State.lean: what each named operation does to each field of the state, one lemma per field, so that no
later proof unfolds a record update. -/

namespace Sys2Proof.Machine

section
variable (s : State) (ws : List Word) (o : Opcode) (opc : Byte) (e : ErrCode) (u : PermState) (v : CtrState) (n : Nat)

@[simp] theorem popCommand_pUnit : (popCommand ws s).pUnit = s.pUnit := rfl
@[simp] theorem popCommand_cUnit : (popCommand ws s).cUnit = s.cUnit := rfl
@[simp] theorem popCommand_cmd : (popCommand ws s).cmd = ws := rfl
@[simp] theorem popCommand_rsp : (popCommand ws s).rsp = s.rsp := rfl

@[simp] theorem pushRsp_pUnit : (pushRsp ws s).pUnit = s.pUnit := rfl
@[simp] theorem pushRsp_cUnit : (pushRsp ws s).cUnit = s.cUnit := rfl
@[simp] theorem pushRsp_cmd : (pushRsp ws s).cmd = s.cmd := rfl
@[simp] theorem pushRsp_rsp : (pushRsp ws s).rsp = s.rsp ++ ws := rfl

@[simp] theorem respond_pUnit : (respond o ws s).pUnit = s.pUnit := rfl
@[simp] theorem respond_cUnit : (respond o ws s).cUnit = s.cUnit := rfl
@[simp] theorem respond_cmd : (respond o ws s).cmd = s.cmd := rfl
@[simp] theorem respond_rsp : (respond o ws s).rsp = s.rsp ++ (rspHeader o.byte 0#8 :: ws) := rfl

@[simp] theorem raiseError_pUnit : (raiseError opc e s).pUnit = s.pUnit := rfl
@[simp] theorem raiseError_cUnit : (raiseError opc e s).cUnit = s.cUnit := rfl
@[simp] theorem raiseError_cmd : (raiseError opc e s).cmd = s.cmd := rfl
@[simp] theorem raiseError_rsp : (raiseError opc e s).rsp = s.rsp ++ [rspHeader opc e.code] := rfl

@[simp] theorem fail_pUnit : (fail o e s).pUnit = s.pUnit := rfl
@[simp] theorem fail_cUnit : (fail o e s).cUnit = s.cUnit := rfl
@[simp] theorem fail_cmd : (fail o e s).cmd = s.cmd := rfl
@[simp] theorem fail_rsp : (fail o e s).rsp = s.rsp ++ [rspHeader o.byte e.code] := rfl

@[simp] theorem setP_pUnit : (setP u s).pUnit = some u := rfl
@[simp] theorem setP_cUnit : (setP u s).cUnit = s.cUnit := rfl
@[simp] theorem setP_cmd : (setP u s).cmd = s.cmd := rfl
@[simp] theorem setP_rsp : (setP u s).rsp = s.rsp := rfl

@[simp] theorem setC_pUnit : (setC v s).pUnit = s.pUnit := rfl
@[simp] theorem setC_cUnit : (setC v s).cUnit = some v := rfl
@[simp] theorem setC_cmd : (setC v s).cmd = s.cmd := rfl
@[simp] theorem setC_rsp : (setC v s).rsp = s.rsp := rfl

@[simp] theorem dropP_pUnit : (dropP s).pUnit = none := rfl
@[simp] theorem dropP_cUnit : (dropP s).cUnit = s.cUnit := rfl
@[simp] theorem dropP_cmd : (dropP s).cmd = s.cmd := rfl
@[simp] theorem dropP_rsp : (dropP s).rsp = s.rsp := rfl

@[simp] theorem dropC_pUnit : (dropC s).pUnit = s.pUnit := rfl
@[simp] theorem dropC_cUnit : (dropC s).cUnit = none := rfl
@[simp] theorem dropC_cmd : (dropC s).cmd = s.cmd := rfl
@[simp] theorem dropC_rsp : (dropC s).rsp = s.rsp := rfl

@[simp] theorem hostAppend_pUnit : (hostAppend ws s).pUnit = s.pUnit := rfl
@[simp] theorem hostAppend_cUnit : (hostAppend ws s).cUnit = s.cUnit := rfl
@[simp] theorem hostAppend_cmd : (hostAppend ws s).cmd = s.cmd ++ ws := rfl
@[simp] theorem hostAppend_rsp : (hostAppend ws s).rsp = s.rsp := rfl

@[simp] theorem hostTake_pUnit : (hostTake n s).2.pUnit = s.pUnit := rfl
@[simp] theorem hostTake_cUnit : (hostTake n s).2.cUnit = s.cUnit := rfl
@[simp] theorem hostTake_cmd : (hostTake n s).2.cmd = s.cmd := rfl
@[simp] theorem hostTake_rsp : (hostTake n s).2.rsp = s.rsp.drop n := rfl
@[simp] theorem hostTake_words : (hostTake n s).1 = s.rsp.take n := rfl

end

/-- Two states with equal fields are equal. -/
theorem State.ext_fields {s t : State} (hp : s.pUnit = t.pUnit) (hc : s.cUnit = t.cUnit) (hm : s.cmd = t.cmd)
    (hr : s.rsp = t.rsp) : s = t := by
  cases s; cases t; simp_all

end Sys2Proof.Machine
end

