-- ==== Sys2Proof/Laws/Ops.lean ====
section
/-! SUPPORT. Laws/Ops.lean: for each shared operation, once, everything it can do. -/

namespace Sys2Proof.Machine

/-! ## Responses -/

/-- A response header is `OPC * 2^24 + ERR * 2^16`. -/
theorem rspHeader_eq_errorWord (opc err : Byte) : rspHeader opc err = errorWord opc.toNat err.toNat := by
  apply BitVec.eq_of_toNat_eq
  have h1 := opc.isLt
  have h2 := err.isLt
  simp only [rspHeader, errorWord, BitVec.toNat_append, BitVec.toNat_ofNat, Nat.zero_mod, Nat.or_zero,
    Nat.shiftLeft_eq]
  rw [← Nat.shiftLeft_eq opc.toNat 8, ← Nat.shiftLeft_add_eq_or_of_lt h2, Nat.shiftLeft_eq]
  omega

/-- The error codes are 1 to 5. -/
theorem ErrCode.code_range (e : ErrCode) : 1 ≤ e.code.toNat ∧ e.code.toNat ≤ 5 := by
  cases e <;> decide

/-- A success answer: the header and the payload are appended, nothing else changes. -/
theorem respond_eq (o : Opcode) (ws : List Word) (s : State) :
    respond o ws s = { s with rsp := s.rsp ++ (rspHeader o.byte 0#8 :: ws) } := rfl

/-- Error entry: one word is appended, nothing else changes. -/
theorem raiseError_eq (opc : Byte) (e : ErrCode) (s : State) :
    raiseError opc e s = { s with rsp := s.rsp ++ [rspHeader opc e.code] } := rfl

theorem fail_eq (o : Opcode) (e : ErrCode) (s : State) :
    fail o e s = { s with rsp := s.rsp ++ [rspHeader o.byte e.code] } := rfl

/-! ## The P-unit's advance and draws -/

@[simp] theorem advance_snd (u : PermState) : (advance u).2 = advanceState u := rfl
@[simp] theorem advance_fst (u : PermState) : (advance u).1 = extractWord (advanceState u).s := rfl
@[simp] theorem advanceState_k (u : PermState) : (advanceState u).k = u.k := rfl
@[simp] theorem advanceState_r (u : PermState) : (advanceState u).r = u.r := rfl
@[simp] theorem advanceState_rounds (u : PermState) : (advanceState u).rounds = u.rounds := rfl
@[simp] theorem pAfter_k (u : PermState) (n : Nat) : (pAfter u n).k = u.k := rfl
@[simp] theorem pAfter_r (u : PermState) (n : Nat) : (pAfter u n).r = u.r := rfl
@[simp] theorem pAfter_rounds (u : PermState) (n : Nat) : (pAfter u n).rounds = u.rounds := rfl

@[simp] theorem pAfter_zero (u : PermState) : pAfter u 0 = u := by
  simp [pAfter]

theorem pAfter_one (u : PermState) : pAfter u 1 = advanceState u := by
  simp [pAfter, advanceState]

/-- Advancing and then advancing `n` more is advancing `n + 1`. -/
theorem pAfter_succ (u : PermState) (n : Nat) : pAfter (advanceState u) n = pAfter u (n + 1) := by
  simp only [pAfter, advanceState, Nat.succ_mul, Function.iterate_add_apply]

theorem pWord_zero (u : PermState) : pWord u 0 = extractWord (advanceState u).s := by
  simp [pWord, pAfter_one]

theorem pWord_succ (u : PermState) (j : Nat) : pWord (advanceState u) j = pWord u (j + 1) := by
  simp only [pWord, pAfter_succ]

/-- Prepending the first value of an indexed list. -/
theorem wordsOf_succ {α : Type} (n : Nat) (f : Nat → α) : wordsOf (n + 1) f = f 0 :: wordsOf n (fun j => f (j + 1)) := by
  simp [wordsOf, List.range_succ_eq_map, List.map_map, Function.comp_def]

@[simp] theorem wordsOf_zero {α : Type} (f : Nat → α) : wordsOf 0 f = [] := rfl

@[simp] theorem wordsOf_length {α : Type} (n : Nat) (f : Nat → α) : (wordsOf n f).length = n := by
  simp [wordsOf]

theorem wordsOf_map {α β : Type} (g : α → β) (n : Nat) (f : Nat → α) :
    (wordsOf n f).map g = wordsOf n (fun j => g (f j)) := by
  simp [wordsOf, List.map_map, Function.comp_def]

/-- `n` draws: the words by index, and the unit `n` advances on. -/
theorem draws_eq (n : Nat) (u : PermState) : draws n u = (wordsOf n (pWord u), pAfter u n) := by
  induction n generalizing u with
  | zero => simp [draws]
  | succ n ih =>
    have hw : pWord (advanceState u) = fun j => pWord u (j + 1) := funext (pWord_succ u)
    simp only [draws, advance_fst, advance_snd, ih, wordsOf_succ, pAfter_succ, pWord_zero, hw]

/-! ## The C-unit's blocks and requests -/

@[simp] theorem block_fst (u : CtrState) : (block u).1 = blockFn u.key u.kmix u.rounds u.ctr := rfl
@[simp] theorem block_snd (u : CtrState) : (block u).2 = cAfter u 1 := rfl
@[simp] theorem cAfter_key (u : CtrState) (q : Nat) : (cAfter u q).key = u.key := rfl
@[simp] theorem cAfter_kmix (u : CtrState) (q : Nat) : (cAfter u q).kmix = u.kmix := rfl
@[simp] theorem cAfter_rounds (u : CtrState) (q : Nat) : (cAfter u q).rounds = u.rounds := rfl
@[simp] theorem cAfter_ctr (u : CtrState) (q : Nat) : (cAfter u q).ctr = u.ctr + BitVec.ofNat 64 q := rfl

@[simp] theorem cAfter_zero (u : CtrState) : cAfter u 0 = u := by
  simp [cAfter]

theorem cAfter_add (u : CtrState) (p q : Nat) : cAfter (cAfter u p) q = cAfter u (p + q) := by
  simp [cAfter, BitVec.ofNat_add, BitVec.add_assoc]

/-- Word `j` of a request that starts `q` blocks later is word `8q + j`. -/
theorem cWord_cAfter (u : CtrState) (q j : Nat) : cWord (cAfter u q) j = cWord u (8 * q + j) := by
  have h1 : (8 * q + j) / 8 = q + j / 8 := by omega
  have h2 : (8 * q + j) % 8 = j % 8 := by omega
  simp [cWord, octAt, h1, h2, BitVec.ofNat_add, BitVec.add_assoc]

/-- The words of one block, by index. -/
theorem octList_block (u : CtrState) : octList (blockFn u.key u.kmix u.rounds u.ctr) = wordsOf 8 (cWord u) := by
  simp [octList, wordsOf, List.range_succ, cWord, octAt]

theorem wordsOf_add {α : Type} (m n : Nat) (f : Nat → α) :
    wordsOf (m + n) f = wordsOf m f ++ wordsOf n (fun j => f (m + j)) := by
  simp [wordsOf, List.range_add, List.map_map, Function.comp_def]

/-- `q` blocks: the words by index, and the counter `q` blocks on. -/
theorem blocks_eq (q : Nat) (u : CtrState) : blocks q u = (wordsOf (8 * q) (cWord u), cAfter u q) := by
  induction q generalizing u with
  | zero => simp [blocks]
  | succ q ih =>
    have h : 8 * (q + 1) = 8 + 8 * q := by omega
    have hw : cWord (cAfter u 1) = fun j => cWord u (8 + j) := funext (cWord_cAfter u 1)
    simp only [blocks, block_fst, block_snd, ih, octList_block, cAfter_add, h, wordsOf_add, hw, Nat.add_comm]

theorem wordsOf_take {α : Type} (m n : Nat) (f : Nat → α) (h : n ≤ m) : (wordsOf m f).take n = wordsOf n f := by
  obtain ⟨k, rfl⟩ := Nat.exists_eq_add_of_le h
  rw [wordsOf_add, List.take_left' (wordsOf_length n f)]

/-- A request: the first `n` words by index, and the counter `ceil(n/8)` blocks on. -/
theorem request_eq (n : Nat) (u : CtrState) : request n u = (wordsOf n (cWord u), cAfter u (blockCount n)) := by
  simp only [request, blocks_eq]
  rw [wordsOf_take]
  simp only [blockCount]
  omega

end Sys2Proof.Machine
end

