-- ==== Sys2Proof/Laws/PerInstr.lean ====
section
/-! SUPPORT. Laws/PerInstr.lean: the statement made once per instruction, with one lemma per constructor. -/

namespace Sys2Proof.Laws.EncodeCut

open Sys2Proof

/-- A well-formed instruction's encoding is one legal header of its own opcode, and exactly as many operand words as that
header counts (R100, R101, R105). -/
def Statement (i : Instr) : Prop :=
  i.wellFormed = true →
    ∃ (h : Word) (ops : List Word),
      encode i = h :: ops ∧ checkHeader h = .ok i.opcode ∧ ops.length + 1 = legalLen i.opcode h

/-- A command outside the INIT formats: its header is plain and its length is its format's. -/
theorem of_plain {i : Instr} {ops : List Word} (he : encode i = plainHeader i.opcode :: ops) (hf : i.opcode.format ≠ .I)
    (hl : ops.length + 1 = legalLen i.opcode (plainHeader i.opcode)) : Statement i :=
  fun _ => ⟨_, ops, he, checkHeader_plainHeader _ hf, hl⟩

theorem pinit (seed : Qword) (rounds : Option Word) (zetas : Option Zetas) (tag : Option (List Byte)) :
    Statement (.pinit seed rounds zetas tag) := by
  intro hw
  have ht := tagLen_lt hw
  refine ⟨_, _, rfl, checkHeader_mkHeader .pinit _ _ _ _ _ rfl (by simp) (by simp) ?_, ?_⟩
  · cases tag <;> simp
  · simp only [Instr.opcode, legalLen, Opcode.format, List.length_append, qwordWords_length, optWords_packTag_length,
      hdrDR_mkHeader, hdrDZ_mkHeader, hdrDD_mkHeader, hdrDlen_mkHeader, Nat.mod_eq_of_lt ht, if_true]
    cases rounds <;> cases zetas <;> simp <;> omega

theorem pnext32 : Statement .pnext32 := of_plain rfl (by decide) rfl
theorem pnextf : Statement .pnextf := of_plain rfl (by decide) rfl
theorem prange (lo hi : Dword) : Statement (.prange lo hi) := of_plain rfl (by simp [Instr.opcode, Opcode.format]) rfl
theorem pbatch (n : Dword) : Statement (.pbatch n) := of_plain rfl (by simp [Instr.opcode, Opcode.format]) rfl
theorem pdrop : Statement .pdrop := of_plain rfl (by decide) rfl

theorem cinit (seed : Option Qword) (rounds : Option Word) (tag : Option (List Byte)) :
    Statement (.cinit seed rounds tag) := by
  intro hw
  have ht := tagLen_lt hw
  refine ⟨_, _, rfl, checkHeader_mkHeader .cinit _ _ _ _ _ rfl (by simp) (by simp) ?_, ?_⟩
  · cases tag <;> simp
  · simp only [Instr.opcode, legalLen, Opcode.format, List.length_append, optWords_packTag_length, hdrDS_mkHeader,
      hdrDR_mkHeader, hdrDD_mkHeader, hdrDlen_mkHeader, Nat.mod_eq_of_lt ht]
    cases seed <;> cases rounds <;> simp <;> omega

theorem cwords (n : Dword) : Statement (.cwords n) := of_plain rfl (by simp [Instr.opcode, Opcode.format]) rfl
theorem cunif (n : Dword) : Statement (.cunif n) := of_plain rfl (by simp [Instr.opcode, Opcode.format]) rfl
theorem crandi (low high n : Dword) : Statement (.crandi low high n) :=
  of_plain rfl (by simp [Instr.opcode, Opcode.format]) rfl
theorem crandn (n : Dword) : Statement (.crandn n) := of_plain rfl (by simp [Instr.opcode, Opcode.format]) rfl
theorem cdrop : Statement .cdrop := of_plain rfl (by decide) rfl

end Sys2Proof.Laws.EncodeCut
end

