-- ==== Sys2Proof/Laws/Step.lean ====
section
/-! SUPPORT. Laws/Step.lean: what an instruction can do, said once; the decoder and the instructions on a stream with more
words behind it; and the step on each outcome of the decoder. -/

namespace Sys2Proof.Machine

/-! ## The step, by what stands at the head of `CMD` -/

theorem step_of_command {s : State} {i : Instr} {rest : List Word} (h : decode s.cmd = .command i rest) :
    step s = exec i (popCommand rest s) := by
  simp [step, h]

theorem step_of_illegal {s : State} {opc : Byte} {why : Illegal} {rest : List Word}
    (h : decode s.cmd = .illegal opc why rest) :
    step s = .next (raiseError opc .illegalCommand (popCommand rest s)) := by
  simp [step, h]

theorem step_of_incomplete {s : State} (h : decode s.cmd = .incomplete) : step s = .fault .awaitingCommand := by
  simp [step, h]

/-! ## What an instruction can do -/

/-- The shape of an answer to `i` from `s`: one response under `i`'s OPC byte; an error changes no unit; and `i` writes its
own unit only. -/
def Answers (i : Instr) (s t : State) : Prop :=
  ∃ (err : Byte) (payload : List Word),
    t.cmd = s.cmd ∧ t.rsp = s.rsp ++ (rspHeader i.opcode.byte err :: payload) ∧ err.toNat ≤ 5
    ∧ (err ≠ 0#8 → payload = [] ∧ t.pUnit = s.pUnit ∧ t.cUnit = s.cUnit)
    ∧ (onPUnit i = true → t.cUnit = s.cUnit) ∧ (onPUnit i = false → t.pUnit = s.pUnit)

/-- An error answer has the shape. -/
theorem answers_fail (i : Instr) (e : ErrCode) (s : State) : Answers i s (fail i.opcode e s) :=
  ⟨e.code, [], rfl, rfl, e.code_range.2, fun _ => ⟨rfl, rfl, rfl⟩, fun _ => rfl, fun _ => rfl⟩

/-- A success answer of a P-unit command has the shape. -/
theorem answers_respondP (i : Instr) (u : Option PermState) (ws : List Word) (s : State) (h : onPUnit i = true) :
    Answers i s (respond i.opcode ws { s with pUnit := u }) :=
  ⟨0#8, ws, rfl, rfl, by decide, fun hn => absurd rfl hn, fun _ => rfl, fun hf => by simp [h] at hf⟩

/-- A success answer of a C-unit command has the shape. -/
theorem answers_respondC (i : Instr) (u : Option CtrState) (ws : List Word) (s : State) (h : onPUnit i = false) :
    Answers i s (respond i.opcode ws { s with cUnit := u }) :=
  ⟨0#8, ws, rfl, rfl, by decide, fun hn => absurd rfl hn, fun hf => by simp [h] at hf, fun _ => rfl⟩

/-- Every instruction gives a next state, of that shape (R309). -/
theorem exec_answers (i : Instr) (s : State) : ∃ t, exec i s = .next t ∧ Answers i s t := by
  cases i with
  | pinit seed rounds zetas tag =>
    refine ⟨_, rfl, ?_⟩
    simp only [pinitWith]
    split_ifs
    · exact answers_fail (.pinit seed rounds zetas tag) _ s
    · exact answers_fail (.pinit seed rounds zetas tag) _ s
    · exact answers_respondP (.pinit seed rounds zetas tag) _ _ s rfl
  | pnext32 =>
    refine ⟨_, rfl, ?_⟩
    unfold pnext32
    split
    · exact answers_fail .pnext32 _ s
    · exact answers_respondP .pnext32 _ _ s rfl
  | pnextf =>
    refine ⟨_, rfl, ?_⟩
    unfold pnextf
    split
    · exact answers_fail .pnextf _ s
    · exact answers_respondP .pnextf _ _ s rfl
  | prange lo hi =>
    refine ⟨_, rfl, ?_⟩
    unfold prange
    split
    · exact answers_fail (.prange lo hi) _ s
    · split_ifs
      · exact answers_fail (.prange lo hi) _ s
      · exact answers_respondP (.prange lo hi) _ _ s rfl
  | pbatch n =>
    refine ⟨_, rfl, ?_⟩
    unfold pbatch
    split
    · exact answers_fail (.pbatch n) _ s
    · split_ifs
      · exact answers_fail (.pbatch n) _ s
      · exact answers_respondP (.pbatch n) _ _ s rfl
  | pdrop => exact ⟨_, rfl, answers_respondP .pdrop none [] s rfl⟩
  | cinit seed rounds tag =>
    refine ⟨_, rfl, ?_⟩
    simp only [cinitWith]
    split_ifs
    · exact answers_fail (.cinit seed rounds tag) _ s
    · exact answers_fail (.cinit seed rounds tag) _ s
    · exact answers_respondC (.cinit seed rounds tag) _ _ s rfl
  | cwords n =>
    refine ⟨_, rfl, ?_⟩
    unfold cwords
    split
    · exact answers_fail (.cwords n) _ s
    · split_ifs
      · exact answers_fail (.cwords n) _ s
      · exact answers_respondC (.cwords n) _ _ s rfl
  | cunif n =>
    refine ⟨_, rfl, ?_⟩
    unfold cunif
    split
    · exact answers_fail (.cunif n) _ s
    · split_ifs
      · exact answers_fail (.cunif n) _ s
      · exact answers_respondC (.cunif n) _ _ s rfl
  | crandi low high n =>
    refine ⟨_, rfl, ?_⟩
    unfold crandi
    split
    · exact answers_fail (.crandi low high n) _ s
    · split_ifs
      · exact answers_fail (.crandi low high n) _ s
      · exact answers_fail (.crandi low high n) _ s
      · exact answers_respondC (.crandi low high n) _ _ s rfl
  | crandn n =>
    refine ⟨_, rfl, ?_⟩
    unfold crandnWith
    split
    · exact answers_fail (.crandn n) _ s
    · split_ifs
      · exact answers_fail (.crandn n) _ s
      · exact answers_respondC (.crandn n) _ _ s rfl
  | cdrop => exact ⟨_, rfl, answers_respondC .cdrop none [] s rfl⟩

/-! ## The streams: more words behind `CMD`, other words in front of `RSP` -/

/-- `s` with another command stream, and `RSP`'s words so far replaced. -/
def withStreams (cmd rsp : List Word) (s : State) : State := { s with cmd := cmd, rsp := rsp }

/-- An instruction reads neither stream: on other streams it gives the same units and appends the same words. -/
theorem exec_withStreams (i : Instr) (s : State) :
    ∃ (p : Option PermState) (c : Option CtrState) (answer : List Word), ∀ cmd rsp : List Word,
      exec i (withStreams cmd rsp s) = .next { pUnit := p, cUnit := c, cmd := cmd, rsp := rsp ++ answer } := by
  cases i with
  | pinit seed rounds zetas tag =>
    simp only [exec, execPinit, pinitWith]
    split_ifs <;> exact ⟨_, _, _, fun _ _ => rfl⟩
  | pnext32 =>
    simp only [exec, execPnext32, pnext32, withStreams]
    cases s.pUnit <;> exact ⟨_, _, _, fun _ _ => rfl⟩
  | pnextf =>
    simp only [exec, execPnextf, pnextf, withStreams]
    cases s.pUnit <;> exact ⟨_, _, _, fun _ _ => rfl⟩
  | prange lo hi =>
    simp only [exec, execPrange, prange, withStreams]
    cases s.pUnit <;> split_ifs <;> exact ⟨_, _, _, fun _ _ => rfl⟩
  | pbatch n =>
    simp only [exec, execPbatch, pbatch, withStreams]
    cases s.pUnit <;> split_ifs <;> exact ⟨_, _, _, fun _ _ => rfl⟩
  | pdrop => exact ⟨_, _, _, fun _ _ => rfl⟩
  | cinit seed rounds tag =>
    simp only [exec, execCinit, cinitWith]
    split_ifs <;> exact ⟨_, _, _, fun _ _ => rfl⟩
  | cwords n =>
    simp only [exec, execCwords, cwords, withStreams]
    cases s.cUnit <;> split_ifs <;> exact ⟨_, _, _, fun _ _ => rfl⟩
  | cunif n =>
    simp only [exec, execCunif, cunif, withStreams]
    cases s.cUnit <;> split_ifs <;> exact ⟨_, _, _, fun _ _ => rfl⟩
  | crandi low high n =>
    simp only [exec, execCrandi, crandi, withStreams]
    cases s.cUnit <;> split_ifs <;> exact ⟨_, _, _, fun _ _ => rfl⟩
  | crandn n =>
    simp only [exec, execCrandn, crandnWith, withStreams]
    cases s.cUnit <;> split_ifs <;> exact ⟨_, _, _, fun _ _ => rfl⟩
  | cdrop => exact ⟨_, _, _, fun _ _ => rfl⟩

end Sys2Proof.Machine

namespace Sys2Proof

/-- The words of a decoded stream, with `more` behind them. -/
def Decoded.andThen (more : List Word) : Decoded → Decoded
  | .incomplete => .incomplete
  | .illegal opc why rest => .illegal opc why (rest ++ more)
  | .command i rest => .command i (rest ++ more)

/-- A complete command at the head of a stream is the same whatever follows the stream (R105). -/
theorem decode_append {ws : List Word} (more : List Word) (h : decode ws ≠ .incomplete) :
    decode (ws ++ more) = (decode ws).andThen more := by
  cases ws with
  | nil => exact absurd rfl h
  | cons w tail =>
    have hl : ¬ tail.length < cmdLen w - 1 := by
      intro hlt
      exact h ((decode_incomplete w tail).mpr (by omega))
    have ht : (tail ++ more).take (cmdLen w - 1) = tail.take (cmdLen w - 1) :=
      List.take_append_of_le_length (by omega)
    have hd : (tail ++ more).drop (cmdLen w - 1) = tail.drop (cmdLen w - 1) ++ more :=
      List.drop_append_of_le_length (by omega)
    have hl' : ¬ (tail ++ more).length < cmdLen w - 1 := by
      rw [List.length_append]
      omega
    simp only [List.cons_append, decode, ht, hd, if_neg hl, if_neg hl']
    cases checkHeader w with
    | error why => rfl
    | ok o =>
      simp only
      cases readOperands o w (tail.take (cmdLen w - 1)) <;> rfl

end Sys2Proof
end

