-- ==== Sys2Proof/Machine/Asm.lean ====
section
/-! DEFINITION. Machine/Asm.lean: the assembler text of R125 (30_encoding.md), one command a line, read to the command it
stands for. A line is a list of characters. Spacing and the order of keyword operands follow R125's listing: log entry 10. -/

namespace Sys2Proof.Machine

def isDigit (c : Char) : Bool := decide (48 ≤ c.toNat ∧ c.toNat ≤ 57)

/-- The value of a hexadecimal digit, either case. -/
def hexVal (c : Char) : Option Nat :=
  let n := c.toNat
  if 48 ≤ n ∧ n ≤ 57 then some (n - 48)
  else if 65 ≤ n ∧ n ≤ 70 then some (n - 55)
  else if 97 ≤ n ∧ n ≤ 102 then some (n - 87)
  else none

def decValue (ds : List Char) : Nat := ds.foldl (fun a c => a * 10 + (c.toNat - 48)) 0

def hexValue (ds : List Char) : Nat := ds.foldl (fun a c => a * 16 + (hexVal c).getD 0) 0

/-- One or more decimal digits. What a piece of text yields is a value and the text after it. -/
def asmDigits (cs : List Char) : Option ((List Char) × List Char) :=
  match cs.takeWhile isDigit with
  | [] => none
  | d :: ds => some (d :: ds, cs.dropWhile isDigit)

/-- `<int>`: a decimal integer with optional leading `-`, or `0x` hexadecimal (R125). -/
def asmInt : List Char → Option (Int × List Char)
  | '0' :: 'x' :: t =>
    match t.takeWhile (fun c => (hexVal c).isSome) with
    | [] => none
    | d :: ds => some ((hexValue (d :: ds) : Int), t.dropWhile (fun c => (hexVal c).isSome))
  | '-' :: t => (asmDigits t).map (fun p => (-(decValue p.1 : Int), p.2))
  | t => (asmDigits t).map (fun p => ((decValue p.1 : Int), p.2))

/-- The fraction digits after a `.`, if there are any. -/
def asmFraction : List Char → Option ((List Char) × List Char)
  | '.' :: t => asmDigits t
  | t => some ([], t)

/-- The exponent after an `e`, if there is one. -/
def asmExponent : List Char → Option (Int × List Char)
  | 'e' :: '-' :: t => (asmDigits t).map (fun p => (-(decValue p.1 : Int), p.2))
  | 'e' :: '+' :: t => (asmDigits t).map (fun p => ((decValue p.1 : Int), p.2))
  | 'e' :: t => (asmDigits t).map (fun p => ((decValue p.1 : Int), p.2))
  | t => some (0, t)

/-- An unsigned decimal floating-point literal, converted by round-to-nearest (R125). R125 gives `<f>` no grammar. DESIGN
CHOICE, log entry 10: one or more digits; then, if a `.` follows, one or more digits; then, if a lower-case `e` follows, an
optional sign and one or more digits. So `.5`, `1.` and `1E5` are no literals. -/
def asmUFloat (neg : Bool) (cs : List Char) : Option (F64 × List Char) := do
  let (whole, t) ← asmDigits cs
  let (frac, t) ← asmFraction t
  let (ex, t) ← asmExponent t
  let m := decValue (whole ++ frac)
  let e := ex - (frac.length : Int)
  return (if 0 ≤ e then f64OfRatio neg (m * 10 ^ e.toNat) 1 else f64OfRatio neg m (10 ^ (-e).toNat), t)

/-- `<f>` (R125): a literal with an optional leading `-` and no leading `+` (DESIGN CHOICE, log entry 10). -/
def asmFloat : List Char → Option (F64 × List Char)
  | '-' :: t => asmUFloat true t
  | t => asmUFloat false t

/-- Pairs of hexadecimal digits to the end of the digits. -/
def asmHexBytes : List Char → Option (List Byte)
  | [] => some []
  | [_] => none
  | a :: b :: t => do
    let x ← hexVal a
    let y ← hexVal b
    let rest ← asmHexBytes t
    return BitVec.ofNat 8 (x * 16 + y) :: rest

/-- `<bytes>`: a double-quoted ASCII string, or `hex:` and an even number of hexadecimal digits (R125). -/
def asmBytes : List Char → Option ((List Byte) × List Char)
  | '"' :: t =>
    let body := t.takeWhile (fun c => c != '"')
    match t.dropWhile (fun c => c != '"') with
    | '"' :: rest =>
      if body.all (fun c => decide (c.toNat < 128)) then some (body.map (fun c => BitVec.ofNat 8 c.toNat), rest) else none
    | _ => none
  | 'h' :: 'e' :: 'x' :: ':' :: t =>
    (asmHexBytes (t.takeWhile (fun c => (hexVal c).isSome))).map
      (fun bs => (bs, t.dropWhile (fun c => (hexVal c).isSome)))
  | _ => none

/-- The given characters, or nothing. -/
def asmLit (want : List Char) (cs : List Char) : Option (List Char) :=
  if want.isPrefixOf cs then some (cs.drop want.length) else none

def skipSpaces (cs : List Char) : List Char := cs.dropWhile (fun c => c == ' ')

/-- `(<f>,<f>,<f>)`. -/
def asmZetas (cs : List Char) : Option (Zetas × List Char) := do
  let t ← asmLit ['('] cs
  let (a, t) ← asmFloat t
  let t ← asmLit [','] t
  let (b, t) ← asmFloat (skipSpaces t)
  let t ← asmLit [','] t
  let (c, t) ← asmFloat (skipSpaces t)
  let t ← asmLit [')'] t
  return (⟨a, b, c⟩, skipSpaces t)

/-- A keyword operand that may be left out (R125: leaving it out sets its default flag). -/
def asmKeyword {α : Type} (kw : List Char) (read : List Char → Option (α × List Char)) (cs : List Char) : Option ((Option α) × List Char) :=
  match asmLit kw cs with
  | none => some (none, cs)
  | some t => (read t).map (fun p => (some p.1, skipSpaces p.2))

/-- `<int>` and the separator after it, a comma and spaces. -/
def asmIntComma (cs : List Char) : Option (Int × List Char) := do
  let (v, t) ← asmInt cs
  let t ← asmLit [','] t
  return (v, skipSpaces t)

/-- The keywords of the INIT operands (R125). -/
def asmSeedKw : List Char := ['s', 'e', 'e', 'd', '=']
def asmRoundsKw : List Char := ['r', 'o', 'u', 'n', 'd', 's', '=']
def asmZetasKw : List Char := ['z', 'e', 't', 'a', 's', '=']
def asmDomainKw : List Char := ['d', 'o', 'm', 'a', 'i', 'n', '=']

/-- The mnemonics (R104). -/
def mnemonicChars : Opcode → List Char
  | .pinit => ['P', 'I', 'N', 'I', 'T']
  | .pnext32 => ['P', 'N', 'E', 'X', 'T', '3', '2']
  | .pnextf => ['P', 'N', 'E', 'X', 'T', 'F']
  | .prange => ['P', 'R', 'A', 'N', 'G', 'E']
  | .pbatch => ['P', 'B', 'A', 'T', 'C', 'H']
  | .pdrop => ['P', 'D', 'R', 'O', 'P']
  | .cinit => ['C', 'I', 'N', 'I', 'T']
  | .cwords => ['C', 'W', 'O', 'R', 'D', 'S']
  | .cunif => ['C', 'U', 'N', 'I', 'F']
  | .crandi => ['C', 'R', 'A', 'N', 'D', 'I']
  | .crandn => ['C', 'R', 'A', 'N', 'D', 'N']
  | .cdrop => ['C', 'D', 'R', 'O', 'P']

/-- A front-end result as an option: a line whose operands no command can carry is no command. -/
def exceptOption {ε α : Type} : Except ε α → Option α
  | .ok a => some a
  | .error _ => none

/-- The operand text of an opcode, as the call it stands for (R125, R126); nothing may follow the operands. -/
def asmOperands (o : Opcode) (cs : List Char) : Option Instr := do
  let (i, rest) ← (match o with
    | .pinit => do
      let t ← asmLit asmSeedKw cs
      let (seed, t) ← asmInt t
      let (rounds, t) ← asmKeyword asmRoundsKw asmInt (skipSpaces t)
      let (zetas, t) ← asmKeyword asmZetasKw asmZetas t
      let (domain, t) ← asmKeyword asmDomainKw asmBytes t
      let i ← exceptOption (expandCall (.permutationRGE seed rounds zetas domain))
      return (i, t)
    | .pnext32 => some (.pnext32, cs)
    | .pnextf => some (.pnextf, cs)
    | .prange => do
      let (lo, t) ← asmIntComma cs
      let (hi, t) ← asmInt t
      let i ← exceptOption (expandCall (.nextRange lo hi))
      return (i, t)
    | .pbatch => do
      let (n, t) ← asmInt cs
      let i ← exceptOption (expandCall (.nextBatch n))
      return (i, t)
    | .pdrop => some (.pdrop, cs)
    | .cinit => do
      let (seed, t) ← asmKeyword asmSeedKw asmInt cs
      let (rounds, t) ← asmKeyword asmRoundsKw asmInt t
      let (domain, t) ← asmKeyword asmDomainKw asmBytes t
      let i ← exceptOption (expandCall (.counterModeRGE seed rounds domain))
      return (i, t)
    | .cwords => do
      let (n, t) ← asmInt cs
      let i ← exceptOption (expandCall (.randomWords n))
      return (i, t)
    | .cunif => do
      let (n, t) ← asmInt cs
      let c ← exceptOption (signedOperand 64 n)
      return (.cunif c, t)
    | .crandi => do
      let (low, t) ← asmIntComma cs
      let (high, t) ← asmIntComma t
      let (n, t) ← asmInt t
      let a ← exceptOption (signedOperand 64 low)
      let b ← exceptOption (signedOperand 64 high)
      let c ← exceptOption (signedOperand 64 n)
      return (.crandi a b c, t)
    | .crandn => do
      let (n, t) ← asmInt cs
      let c ← exceptOption (signedOperand 64 n)
      return (.crandn c, t)
    | .cdrop => some (.cdrop, cs) : Option (Instr × List Char))
  if (skipSpaces rest).isEmpty then some i else none

/-- One line of assembler text (R125). -/
def assemble (line : List Char) : Option Instr :=
  let word := line.takeWhile (fun c => c != ' ')
  let rest := skipSpaces (line.dropWhile (fun c => c != ' '))
  match Opcode.all.find? (fun o => mnemonicChars o == word) with
  | none => none
  | some o => asmOperands o rest

end Sys2Proof.Machine
end

