-- ==== Sys2Proof/Tests/Slice0.lean ====
section
/-! SUPPORT. Tests/Slice0.lean: tests of the model against the worked examples of the spec (95_test_vectors.md, named V-…)
and, for each statement with hypotheses, a concrete state and operands that meet them (`test_meets_…`). -/

namespace Sys2Proof.Tests

open Sys2Proof Sys2Proof.Machine

/-! ## Helpers -/

/-- The state, keys and schedule of V-STEP-1, three steps an advance. -/
def unitP : PermState :=
  { s := ⟨1, 2, 3, 4, 5, 6, 7, 8⟩
    k := ⟨0x11111111, 0x22222222, 0x33333333, 0x44444444, 0x55555555, 0x66666666, 0x77777777, 0x88888888⟩
    r := ⟨11, 10, 19, 7, 30, 1, 15, 13⟩
    rounds := 3 }

/-- The unit of V-CI-2 (CINIT seed=1 under REFCFG), its counter as given. -/
def unitC (ctr : Dword) : CtrState :=
  { key := ⟨0xD1D522F1, 0xDB09F918, 0x26194B8F, 0x2D21284D, 0x9CA00502, 0x2758D994, 0x536E1556, 0x353DEEA6⟩
    kmix := ⟨0xBBDCC496, 0x606E579D, 0x1A77B8FD, 0x886EDD77, 0xCDAE577D, 0xBC5DB118, 0x4CEDCCFD, 0x6EDD23BF⟩
    ctr := ctr
    rounds := 6 }

/-- Both units ready, `CMD` as given, `RSP` empty. -/
def ready (cmd : List Word) : State := { pUnit := some unitP, cUnit := some (unitC 0), cmd := cmd, rsp := [] }

/-- Reset, with `CMD` as given. -/
def fresh (cmd : List Word) : State := { State.reset with cmd := cmd }

/-- What a step answered; nothing where it stopped. -/
def answer : Host.Outcome State Fault Refusal → List Word
  | .next t => t.rsp
  | .fault _ => []
  | .refused _ => []

/-- The first 32 digest bytes that V-CI-2 prints, and zeros; the engine reads no more of them (R174). -/
def digestCI2 : Vector Byte 64 :=
  ⟨#[0xF1, 0x22, 0xD5, 0xD1, 0x18, 0xF9, 0x09, 0xDB, 0x8F, 0x4B, 0x19, 0x26, 0x4D, 0x28, 0x21, 0x2D,
     0x02, 0x05, 0xA0, 0x9C, 0x94, 0xD9, 0x58, 0x27, 0x56, 0x15, 0x6E, 0x53, 0xA6, 0xEE, 0x3D, 0x35]
    ++ Array.replicate 32 0, rfl⟩

/-- REFCFG with the one digest of V-CI-2, and a Box-Muller stand-in that gives +0. -/
def cfg1 : Cfg := refCfg (fun m => if m = digestMsg 1 refDomainC.toList then digestCI2 else Vector.replicate 64 0) (fun _ _ => 0)

/-! ## WellFormed -/

/-- A tag of `n` zero bytes fits exactly when `n` is at most DLEN_MAX. -/
theorem tagFits_replicate (n : Nat) : tagFits (some (List.replicate n 0)) = decide (n ≤ dlenMax) := by
  simp [tagFits]

/-- A tag of 65536 bytes does not fit DLEN; one of 65535 does (R100, DLEN_MAX of R7). -/
theorem test_wellFormed_pinit_long_tag :
    (Instr.pinit 1 none none (some (List.replicate 65536 0))).wellFormed = false
    ∧ (Instr.pinit 1 none none (some (List.replicate 65535 0))).wellFormed = true := by
  rw [Instr.wellFormed, Instr.wellFormed, tagFits_replicate, tagFits_replicate]
  decide

theorem test_wellFormed_cinit_long_tag :
    (Instr.cinit none none (some (List.replicate 65536 0))).wellFormed = false
    ∧ (Instr.cinit none none (some (List.replicate 65535 0))).wellFormed = true := by
  rw [Instr.wellFormed, Instr.wellFormed, tagFits_replicate, tagFits_replicate]
  decide

/-! ## Decode: one word sequence per constructor, written out from R100 to R104 -/

/-- V-PI-7: every operand of PINIT present. -/
theorem test_decode_pinit :
    decode [0x10000005, 0xFFFFFFFF, 0xFFFFFFFF, 0xFFFFFFFF, 0xFFFFFFFB, 4, 0x3FF95C28, 0xF5C28F5C, 0x3FFED0E5,
        0x60418937, 0x3FF43126, 0xE978D4FE, 0x61623132, 0x78000000, 7]
      = .command (.pinit (BitVec.ofInt 128 (-5)) (some 4) (some zetasDefault)
          (some [0x61, 0x62, 0x31, 0x32, 0x78])) [7] := by decide

/-- V-PI-1, V-PI-8: the default tag and the empty tag are two encodings. -/
theorem test_decode_pinit_defaults :
    decode [0x10E00000, 0, 0, 0, 1] = .command (.pinit 1 none none none) []
    ∧ decode [0x10600000, 0, 0, 0, 1] = .command (.pinit 1 none none (some [])) [] := by decide

theorem test_decode_pnext32 : decode [0x11000000, 5] = .command .pnext32 [5] := by decide
theorem test_decode_pnextf : decode [0x12000000] = .command .pnextf [] := by decide

/-- V-PROG-1, and a negative bound. -/
theorem test_decode_prange :
    decode [0x13000000, 0, 10, 0, 20] = .command (.prange 10 20) []
    ∧ decode [0x13000000, 0xFFFFFFFF, 0xFFFFFFFD, 0, 3] = .command (.prange (-3) 3) [] := by decide

theorem test_decode_pbatch : decode [0x14000000, 1, 2] = .command (.pbatch 0x100000002) [] := by decide
theorem test_decode_pdrop : decode [0x1F000000] = .command .pdrop [] := by decide

/-- V-CI-1, V-CI-4, V-CI-7. -/
theorem test_decode_cinit :
    decode [0x20D00000] = .command (.cinit none none none) []
    ∧ decode [0x2000000A, 0, 0, 0, 999, 6, 0x52474532, 0x35362D43, 0x54520000]
        = .command (.cinit (some 999) (some 6) (some refDomainC.toList)) []
    ∧ decode [0x20400003, 0, 0, 0, 7, 0x61626300] = .command (.cinit (some 7) none (some [0x61, 0x62, 0x63])) [] := by
  decide

theorem test_decode_cwords : decode [0x21000000, 0xFFFFFFFF, 0xFFFFFFFF] = .command (.cwords (-1)) [] := by decide
theorem test_decode_cunif : decode [0x22000000, 0, 3] = .command (.cunif 3) [] := by decide
theorem test_decode_crandi :
    decode [0x23000000, 0, 0, 0, 6, 0, 4] = .command (.crandi 0 6 4) [] := by decide
theorem test_decode_crandn : decode [0x24000000, 0, 2] = .command (.crandn 2) [] := by decide
theorem test_decode_cdrop : decode [0x2F000000] = .command .cdrop [] := by decide

/-- V-DEC: illegal headers, each taken alone. -/
theorem test_decode_illegal_headers :
    decode [0x00000000, 1] = .illegal 0x00 .unknownOpcode [1]
    ∧ decode [0xFFFFFFFF] = .illegal 0xFF .unknownOpcode []
    ∧ decode [0x11000001] = .illegal 0x11 .lowBitsSet []
    ∧ decode [0x1F800000] = .illegal 0x1F .lowBitsSet []
    ∧ decode [0x10E10000] = .illegal 0x10 .reservedBitsSet []
    ∧ decode [0x10F00000] = .illegal 0x10 .pinitDefaultSeed []
    ∧ decode [0x20E00000] = .illegal 0x20 .cinitDefaultZetas []
    ∧ decode [0x20D00001] = .illegal 0x20 .defaultTagWithLength [] := by decide

/-- V-CI-7: a pad byte that is not zero makes the whole command illegal. -/
theorem test_decode_tag_padding :
    decode [0x20400003, 0, 0, 0, 7, 0x61626301, 9] = .illegal 0x20 .tagPadding [9] := by decide

/-- V-DEC: lengths, and the largest of both INIT formats (R106). -/
theorem test_lengths :
    [0x10E00000, 0x10000005, 0x10C00000, 0x10A00000, 0x20D00000, 0x20C00000, 0x2000000A, 0x20400003, 0x20400000,
      0x1000FFFF, 0x2000FFFF].map cmdLen = [5, 14, 11, 6, 1, 5, 9, 6, 5, 16396, 16390] := by decide

theorem test_decode_incomplete : decode [0x14000000, 0] = .incomplete ∧ decode [] = .incomplete := by decide

/-- The host's table words: the header alone, its operands zero. -/
theorem test_decodeTableWord :
    decodeTableWord 32 0x10000000 = some (.pinit 0 (some 0) (some ⟨0, 0, 0⟩) (some []))
    ∧ decodeTableWord 32 0x2F000000 = some .cdrop ∧ decodeTableWord 32 0x15000000 = none := by decide

/-- The placed command is the one the first step runs, and it is taken whole. -/
theorem test_withFetchWord :
    step (State.reset.withFetchWord 32 0x20000000) = .next { State.reset with rsp := [0x20030000] } := rfl

/-! ## Primitives -/

/-- V-ROT. -/
theorem test_rotl32 :
    rotl32 0x12345678 0 = 0x12345678 ∧ rotl32 0x80000000 1 = 1 ∧ rotl32 0x12345678 13 = 0x8ACF0246
    ∧ rotl32 0x12345678 31 = 0x091A2B3C ∧ rotl32 0x12345678 32 = 0x12345678 ∧ rotl32 0x12345678 45 = 0x8ACF0246 := by
  decide

/-- V-DER. -/
theorem test_derived :
    derived 11 19 = 30 ∧ derived 13 7 = 20 ∧ derived 1 30 = 1 ∧ derived 15 16 = 1 ∧ derived 30 30 = 29 := by decide

/-- V-HASH-PRE, V-FINAL, V-HASH. -/
theorem test_hash :
    hashAcc [] = (0xDEADBEEF, 0x41C6CE57) ∧ hashAcc (decNumeral (-1)) = (0x2EE3BE23, 0x0ADE02AF)
    ∧ refFinal 1 0 = (0x85EBCA6B, 0x514E79F9) ∧ refFinal 0 1 = (0xC2B2AE35, 0x59DA524B)
    ∧ hash2 cfg1 (hashInput 1 refDomainP.toList) = (0x4003C772, 0x5A7AA0E2) := by decide +kernel

/-- V-SCHED-1 and V-SCHED-2. -/
theorem test_schedule :
    schedule cfg1 zetasDefault = ⟨11, 10, 19, 7, 30, 1, 15, 13⟩
    ∧ schedule cfg1 ⟨0x3FF0000000000000, 0x4000000000000000, 0x4008000000000000⟩ = ⟨29, 21, 13, 4, 27, 4, 26, 3⟩ := by
  decide +kernel

/-- V-STEP-1, its first step. -/
theorem test_permStep :
    permStep unitP.k unitP.r unitP.s
      = ⟨0x1F304E68, 0x2001DA11, 0xD38F0A6B, 0x3A0CC718, 0x15179FF2, 0x962A0095, 0x5852BB7D, 0x85EC6F9E⟩ := by
  decide +kernel

/-- V-STEP-2: everything at its largest, all rotations 1. -/
theorem test_permStep_wraps :
    permStep (octOf fun _ => 0xFFFFFFFF) (octOf fun _ => 1) (octOf fun _ => 0xFFFFFFFF)
      = ⟨0xBFF5FFFB, 0x00010008, 0xF7FDFFF7, 0x00000408, 0x00220053, 0xF3FFBF77, 0x01004002, 0xF7EFFDF3⟩ := by
  decide +kernel

/-- V-BLK-1, rounds 1, the counter's last value: words 0, 1 and 5, and the counter after. -/
theorem test_block_wraps :
    let b := block { key := octOf fun _ => 0, kmix := refKeyBase, ctr := 0xFFFFFFFFFFFFFFFF, rounds := 1 }
    b.1.x0 = 0xA0460C47 ∧ b.1.x1 = 0xB526A725 ∧ b.1.x5 = 0x78FC84E3 ∧ b.2.ctr = 0 := by decide +kernel

/-- V-BLK-1, rounds 6, the counter 0123456789ABCDEF. -/
theorem test_block_rounds :
    blockFn (octOf fun _ => 0) refKeyBase 6 0x0123456789ABCDEF
      = ⟨0x50DB394F, 0xA807AD7D, 0xA23C13F0, 0x013B4E9E, 0xE655EEFA, 0x50F9A0EB, 0xBD171A02, 0xAEA7033E⟩ := by
  decide +kernel

/-! ## Instructions -/

/-- V-PI-1: the committed state. -/
theorem test_pinit_seed_one :
    (pinitWith cfg1 1 none none none State.reset).pUnit
      = some
        { s := ⟨0x3BD3FA6B, 0x33EA52AF, 0x6DF47D16, 0x6BB44AFE, 0x9A284B81, 0xA2D16F7D, 0x1D949365, 0xBE6155F2⟩
          k := ⟨0xE169D9C0, 0xA7443C5D, 0x5B40E063, 0xD92ABD65, 0x6375CFEB, 0x46248316, 0x286C9A68, 0x0D170778⟩
          r := ⟨11, 10, 19, 7, 30, 1, 15, 13⟩
          rounds := 3 } := by decide +kernel

/-- V-PI-ERR: finite zetas whose schedule overflows are refused, and the old generator stays. -/
theorem test_pinit_overflow :
    pinitWith cfg1 1 none (some ⟨0x7F76C8E5CA239029, 0x3FF0000000000000, 0x3FF0000000000000⟩) none (ready [])
      = { ready [] with rsp := [0x10030000] } := by decide +kernel

/-- V-STEP-1: three steps, then the extraction. -/
theorem test_pnext32 : answer (exec .pnext32 (ready [])) = [0x11000000, 0xAAE019FE] := by decide +kernel

/-- V-F64. -/
theorem test_pnextf_map :
    [0, 1, 0x80000000, 0xFFFFFFFF, 0xC3D4F015].map wordToF64
      = [0, 0x3DF0000000000000, 0x3FE0000000000000, 0x3FEFFFFFFFE00000, 0x3FE87A9E02A00000] := by decide +kernel

/-- The word of V-STEP-1 as a quotient: AAE019FE has p = 31, so the exponent field is 3FE (R252). -/
theorem test_pnextf : answer (exec .pnextf (ready [])) = [0x12000000, 0x3FE55C03, 0x3FC00000] := by decide +kernel

/-- V-RNG-P. -/
theorem test_prange_map :
    rangeValue 10 20 0xEF0D744C = 19 ∧ rangeValue (-3) 3 0xEF0D744C = -3
    ∧ rangeValue (-9223372036854775808) 9223372036854775807 0xEF0D744C = -9223372032844139444
    ∧ rangeValue 0 4294967294 0xFFFFFFFF = 0 := by decide

/-- `AAE019FE` is 2866813438, and 2866813438 mod 11 is 5. -/
theorem test_prange : answer (exec (.prange 10 20) (ready [])) = [0x13000000, 0, 15] := by decide +kernel

/-- V-PROG-1's shape: two words after the header, and the unit moves; no words, and it stays (R256). -/
theorem test_pbatch :
    (answer (exec (.pbatch 2) (ready []))).take 2 = [0x14000000, 0xAAE019FE]
    ∧ exec (.pbatch 0) (ready []) = .next { ready [] with rsp := [0x14000000] } := by
  refine ⟨by decide +kernel, rfl⟩

theorem test_pdrop : exec .pdrop (ready []) = .next { ready [] with pUnit := none, rsp := [0x1F000000] } := rfl

/-- V-CI-2: key and mixed key. -/
theorem test_cinit_seed_one : (cinitWith cfg1 (some 1) none none State.reset).cUnit = some (unitC 0) := by decide +kernel

/-- V-CI-ERR: EncodingError first. -/
theorem test_cinit_priority :
    cinitWith cfg1 (some 0x8000000000000000) (some 0) none (ready []) = { ready [] with rsp := [0x20010000] } := by
  decide +kernel

/-- V-CI-2: ten words, the counter two blocks on. -/
theorem test_cwords :
    exec (.cwords 10) (ready [])
      = .next { ready [] with
          cUnit := some (unitC 2)
          rsp := [0x21000000, 0x8464536B, 0xBF53900F, 0x826071ED, 0xB6D7D4CB, 0x6EB611F0, 0x1FA34F9B, 0x2100E344,
            0x3258AC37, 0x84645380, 0x1ED35757] } := by rfl

/-- V-F32: truncated, never rounded up. -/
theorem test_cunif_map :
    [0, 1, 3, 0x01FFFFFF, 0x800000FF, 0xFFFFFF80, 0xFFFFFFFF, 0x12F8DE94].map wordToF32
      = [0, 0x2F800000, 0x30400000, 0x3BFFFFFF, 0x3F000000, 0x3F7FFFFF, 0x3F7FFFFF, 0x3D97C6F4] := by decide +kernel

/-- V-RN-1's two uniforms of block 0. -/
theorem test_cunif : answer (exec (.cunif 2) (ready [])) = [0x22000000, 0x3F046453, 0x3F3F5390] := by decide +kernel

/-- V-RNG-C. -/
theorem test_crandi_map :
    randiValue 0 6 0x8464536B = 5 ∧ randiValue (-10) (-3) 0x8464536B = -9
    ∧ randiValue (-9223372036854775808) 9223372036854775807 0x8464536B = -9223372034633608341 := by decide

/-- V-RNG-C through the command: one element, one block. -/
theorem test_crandi :
    answer (exec (.crandi (-10) (-3) 1) (ready [])) = [0x23000000, 0xFFFFFFFF, 0xFFFFFFF7] := by decide +kernel

/-- V-RN-1 and V-RN-2: with a numerics that gives back its second argument, the elements are the words of block 1. -/
theorem test_crandn :
    (crandnWith (refCfg (fun _ => Vector.replicate 64 0) (fun _ b => b)) 2 (ready [])).rsp
      = [0x24000000, 0x3F046453, 0x3DF69ABA] := by decide +kernel

theorem test_crandn_nine_takes_four_blocks : (crandnWith cfg1 9 (ready [])).cUnit = some (unitC 4) := by decide +kernel

theorem test_cdrop : exec .cdrop (ready []) = .next { ready [] with cUnit := none, rsp := [0x2F000000] } := rfl

/-- V-PROG-3: NotReady before DomainError. -/
theorem test_notReady_first : answer (step (fresh [0x13000000, 0, 20, 0, 10])) = [0x13040000] := by decide

/-! ## Assembler text and front end -/

/-- R125: V-PI-7's line. -/
theorem test_asm_pinit :
    assemble "PINIT seed=-5 rounds=4 zetas=(1.585,1.926,1.262) domain=\"ab12x\"".toList
      = some (.pinit (BitVec.ofInt 128 (-5)) (some 4) (some zetasDefault) (some [0x61, 0x62, 0x31, 0x32, 0x78])) := by
  decide +kernel

theorem test_asm_crandi : assemble "CRANDI 0, 6, 4".toList = some (.crandi 0 6 4) := by decide +kernel

theorem test_asm_trailing_text : assemble "PNEXT32 1".toList = none := by decide +kernel

/-- R126: an empty shape is one element; a negative extent is refused also beside a bound that no operand carries. -/
theorem test_frontEnd_shapes :
    expandCall (.uniform []) = .ok (.cunif 1) ∧ expandCall (.randn [2, 3]) = .ok (.crandn 6)
    ∧ expandCall (.randint 0 6 [2, 2]) = .ok (.crandi 0 6 4)
    ∧ expandCall (.randint (2 ^ 70) 6 [2, -1]) = .error .validationError := by decide +kernel

/-! ## What meets the statements' hypotheses -/

theorem test_meets_DecodeOfEncodeIsTheCommand :
    (Instr.cinit none none (some (List.replicate 65535 0))).wellFormed = true ∧ Instr.cdrop.wellFormed = true := by
  rw [Instr.wellFormed, Instr.wellFormed, tagFits_replicate]
  decide

theorem test_meets_DecodedWordsAreTheOneEncoding :
    decode [0x20400003, 0, 0, 0, 7, 0x61626300, 9] = .command (.cinit (some 7) none (some [0x61, 0x62, 0x63])) [9] := by
  decide

/-- Both clauses: one header for each of the six conditions of R111, and a legal one. -/
theorem test_meets_IllegalHeaderIsAnsweredAlone :
    illegalHeader 0x15000000 ∧ illegalHeader 0x11000001 ∧ illegalHeader 0x10E10000 ∧ illegalHeader 0x10F00000
    ∧ illegalHeader 0x20E00000 ∧ illegalHeader 0x20D00001 ∧ ¬ illegalHeader 0x10E00000 ∧ ¬ illegalHeader 0x2000FFFF
    ∧ (fresh [0x15000000, 7]).cmd = [0x15000000, 7] := by
  unfold illegalHeader initOpc
  exact ⟨by decide, by decide, by decide, by decide, by decide, by decide, by decide, by decide, rfl⟩

/-- Both clauses: a pad byte that is not zero, and one that is, under one legal header. -/
theorem test_meets_NonZeroTagPaddingIsIllegalAsAWhole :
    let s := fresh [0x20400003, 0, 0, 0, 7, 0x61626301]
    let s' := fresh [0x20400003, 0, 0, 0, 7, 0x61626300]
    let h : Word := 0x20400003
    ¬ illegalHeader h ∧ cmdLen h ≤ s.cmd.length ∧ cmdLen h ≤ s'.cmd.length
    ∧ initOpc h ∧ h.toNat.testBit 23 = false ∧ h.toNat % 4 ≠ 0
    ∧ (s.cmd.getD (cmdLen h - 1) 0#32).toNat % 2 ^ (8 * (4 - h.toNat % 4)) ≠ 0
    ∧ (s'.cmd.getD (cmdLen h - 1) 0#32).toNat % 2 ^ (8 * (4 - h.toNat % 4)) = 0 := by
  unfold illegalHeader initOpc
  decide

/-- Every clause: illegal; each group of opcodes; the shortest and the longest INIT. -/
theorem test_meets_LengthIsAFunctionOfTheHeader :
    illegalHeader 0x15000000 ∧ ¬ illegalHeader 0x1F000000 ∧ ¬ illegalHeader 0x24000000 ∧ ¬ illegalHeader 0x13000000
    ∧ ¬ illegalHeader 0x23000000 ∧ ¬ illegalHeader 0x10E00000 ∧ ¬ illegalHeader 0x1000FFFF
    ∧ ¬ illegalHeader 0x20D00000 ∧ ¬ illegalHeader 0x2000FFFF := by
  unfold illegalHeader initOpc
  exact ⟨by decide, by decide, by decide, by decide, by decide, by decide, by decide, by decide, by decide⟩

theorem test_meets_StepRunsTheDecodedCommand :
    decode (ready [0x14000000, 0, 2, 0x11000000]).cmd = .command (.pbatch 2) [0x11000000] := by decide

/-- A step that succeeds with a payload, and one that answers an error. -/
theorem test_meets_EveryStepAnswersItsCommandOnce :
    (∃ t, step (ready [0x11000000]) = .next t) ∧ (∃ t, step (fresh [0x11000000]) = .next t) := ⟨⟨_, rfl⟩, ⟨_, rfl⟩⟩

/-- A state with both units ready and their invariants, under any configuration, and a step from it. -/
theorem test_meets_StepKeepsTheUnitInvariants :
    let c : CtrState :=
      { key := (unitC 0).key, kmix := octXor (unitC 0).key Config.CFG.keyBase, ctr := 0xFFFFFFFFFFFFFFFF, rounds := 1 }
    let s : State := { ready [0x21000000, 0, 9] with cUnit := some c }
    s.Inv ∧ ∃ t, step s = .next t := by
  refine ⟨⟨fun u hu => ?_, fun u hu => ?_⟩, ⟨_, rfl⟩⟩
  · obtain rfl : unitP = u := by simpa [ready] using hu
    decide
  · cases hu
    simp [CtrState.legal]

/-- One command whole and the first word of the next; then its last words. -/
theorem test_meets_PacingOfCommandWordsDoesNotMatter :
    let a : List Word := [0x1F000000, 0x14000000]
    let b : List Word := [0, 1]
    Host.Core.run Sys2Proof.core 1 (hostAppend a State.reset) = .next { fresh [0x14000000] with rsp := [0x1F000000] }
    ∧ Host.Core.run Sys2Proof.core 1 (hostAppend b { fresh [0x14000000] with rsp := [0x1F000000] })
        = .next { State.reset with rsp := [0x1F000000, 0x14040000] } := ⟨rfl, rfl⟩

/-- States that agree on one unit and differ on everything else. -/
theorem test_meets_UnitsDoNotInterfere :
    (onPUnit .pnext32 = true ∧ (ready [1]).pUnit = { ready [2] with cUnit := none }.pUnit)
    ∧ (onPUnit (.cwords 3) = false ∧ (ready [1]).cUnit = { ready [2] with pUnit := none }.cUnit) := by
  refine ⟨⟨rfl, rfl⟩, rfl, rfl⟩

/-- Each unit ready before and after a step that is not its INIT. -/
theorem test_meets_OnlyInitChangesKeysScheduleAndRounds :
    (∃ t v, step (ready [0x11000000]) = .next t ∧ opcNum 0x11000000 ≠ 0x10 ∧ (ready [0x11000000]).pUnit = some unitP
      ∧ t.pUnit = some v)
    ∧ (∃ t v, step (ready [0x21000000, 0, 3]) = .next t ∧ opcNum 0x21000000 ≠ 0x20
      ∧ (ready [0x21000000, 0, 3]).cUnit = some (unitC 0) ∧ t.cUnit = some v) :=
  ⟨⟨_, _, rfl, by decide, rfl, rfl⟩, ⟨_, _, rfl, by decide, rfl, rfl⟩⟩

/-- Each clause: a ready bit that moves (both units), and a ready unit that meets its own INIT again. -/
theorem test_meets_OnlyInitAndDropMoveTheReadyBits :
    (∃ t, step (ready [0x1F000000]) = .next t ∧ t.pReady ≠ (ready [0x1F000000]).pReady)
    ∧ (∃ t, step (ready [0x2F000000]) = .next t ∧ t.cReady ≠ (ready [0x2F000000]).cReady)
    ∧ (∃ t, step (ready [0x10A00000, 0, 0, 0, 1, 0]) = .next t ∧ opcNum 0x10A00000 = 0x10
      ∧ (ready [0x10A00000, 0, 0, 0, 1, 0]).pReady = true)
    ∧ (∃ t, step (ready [0x20D00000]) = .next t ∧ opcNum 0x20D00000 = 0x20 ∧ (ready [0x20D00000]).cReady = true) :=
  ⟨⟨_, rfl, by decide⟩, ⟨_, rfl, by decide⟩, ⟨_, rfl, by decide, rfl⟩, ⟨_, rfl, by decide, rfl⟩⟩

/-- Nothing taken, and everything taken, before a step. -/
theorem test_meets_TakingResponsesDoesNotDisturbTheEngine :
    let s : State := { ready [0x1F000000] with rsp := [0x2F000000, 0x11000000] }
    0 ≤ s.rsp.length ∧ 2 ≤ s.rsp.length ∧ ∃ t, step s = .next t := ⟨by decide, by decide, ⟨_, rfl⟩⟩

/-- Both residues, and both ends of the range. -/
theorem test_meets_DerivedAmountIsTheSumModulo31NeverZero :
    ((1 : BitVec 5).toNat + (30 : BitVec 5).toNat) % 31 = 0 ∧ ((30 : BitVec 5).toNat + (30 : BitVec 5).toNat) % 31 ≠ 0 := by
  decide

/-- 1.0 and -1.5 are data, neither is zero, and their sum is in range; the largest datum twice is not. -/
theorem test_meets_Binary64OperationsRoundToNearestEven :
    f64Rat 0x3FF0000000000000 = some 1 ∧ f64Rat 0xBFF8000000000000 = some (-3 / 2) ∧ (-3 / 2 : ℚ) ≠ 0
    ∧ |(1 : ℚ) + -3 / 2| < 2 ^ 1024 - 2 ^ 970
    ∧ f64Rat 0x7FEFFFFFFFFFFFFF = some ((2 ^ 53 - 1) * 2 ^ (971 : Int))
    ∧ (2 ^ 1024 - 2 ^ 970 : ℚ) ≤ |(2 ^ 53 - 1) * 2 ^ (971 : Int) + (2 ^ 53 - 1) * 2 ^ (971 : Int)| := by
  have h3 : f64Read 0x7FEFFFFFFFFFFFFF = .fin false 9007199254740991 971 := by decide +kernel
  have h1 : f64Read 0x3FF0000000000000 = .fin false 4503599627370496 (-52) := by decide +kernel
  have h2 : f64Read 0xBFF8000000000000 = .fin true 6755399441055744 (-52) := by decide +kernel
  have one_le : (1 : ℚ) ≤ 2 ^ 970 := one_le_pow₀ (by norm_num)
  have split : (2 : ℚ) ^ 1024 = 2 ^ 54 * 2 ^ 970 := by rw [← pow_add]
  have top : (2 : ℚ) ^ (971 : Int) = 2 * 2 ^ 970 := by
    rw [← pow_succ']
    exact zpow_natCast 2 971
  refine ⟨?_, ?_, by norm_num, ?_, ?_, ?_⟩
  · rw [f64Rat, h1]
    norm_num [fvalRat]
  · rw [f64Rat, h2]
    norm_num [fvalRat]
  · rw [split, abs_of_neg (by norm_num)]
    generalize (2 : ℚ) ^ 970 = p at one_le
    linarith
  · rw [f64Rat, h3]
    norm_num [fvalRat]
  · rw [top, split]
    generalize (2 : ℚ) ^ 970 = p at one_le
    rw [abs_of_nonneg (by linarith)]
    linarith

theorem test_meets_NumeralIsTheDecimalFormOfTheSeed : (10 : Nat) ≠ 0 ∧ (-170141183460469231731687303715884105728 : Int) < 0 := by
  decide

/-- Seeds 0 and 2^32 (V-PI-4, V-PI-5). -/
theorem test_meets_ZeroXorshiftSeedGivesTheBareIncrements :
    (0 : Qword).toNat % 2 ^ 32 = 0 ∧ (0x100000000 : Qword).toNat % 2 ^ 32 = 0 := by decide

/-- 990 (residue 29, V-SCHED-2) and -31 (residue 0). -/
theorem test_meets_ScheduleEntryIsTheFloorModulo31 :
    f64Rat 0x408EF00000000000 = some 990 ∧ ⌊|(990 : ℚ)|⌋ % 31 ≠ 0
    ∧ f64Rat 0xC03F000000000000 = some (-31) ∧ ⌊|(-31 : ℚ)|⌋ % 31 = 0 := by
  have h1 : f64Read 0x408EF00000000000 = .fin false 8708132091985920 (-43) := by decide +kernel
  have h2 : f64Read 0xC03F000000000000 = .fin true 8725724278030336 (-48) := by decide +kernel
  refine ⟨?_, by norm_num, ?_, by norm_num⟩
  · rw [f64Rat, h1]
    norm_num [fvalRat]
  · rw [f64Rat, h2]
    norm_num [fvalRat]

/-- The default round count, the smallest and the largest. -/
theorem test_meets_PinitInstallsTheExpandedUnit :
    pRoundsDefault = 3#32 ∧ (3#32 : Word) ≠ 0#32 ∧ (1#32 : Word) ≠ 0#32 ∧ (0xFFFFFFFF#32 : Word) ≠ 0#32 := by decide

theorem test_meets_PinitSucceedsUnderEveryConfiguration :
    (1#32 : Word) ≠ 0#32 ∧ schedFinite cfg1 zetasDefault = true := by decide +kernel

/-- Each alternative: no rounds; an infinite first zeta; a NaN second; a negative infinity third. -/
theorem test_meets_PinitRefusesZeroRoundsAndNonFiniteZetas :
    (some (0 : Word) = some 0#32) ∧ f64Finite 0x7FF0000000000000 = false ∧ f64Finite 0x7FF0000000000001 = false
    ∧ f64Finite 0xFFF0000000000000 = false := by decide

theorem test_meets_Pnext32AdvancesOnceAndReturnsTheWord : (ready []).pUnit = some unitP := rfl
theorem test_meets_PnextfReturnsTheExactQuotient : (ready []).pUnit = some unitP := rfl

/-- A range of one value, and the whole range. -/
theorem test_meets_PrangeReturnsAValueInTheInclusiveRange :
    (ready []).pUnit = some unitP ∧ (5 : Dword).toInt ≤ (5 : Dword).toInt
    ∧ (0x8000000000000000 : Dword).toInt ≤ (0x7FFFFFFFFFFFFFFF : Dword).toInt := ⟨rfl, by decide, by decide⟩

/-- No words, and the largest count. -/
theorem test_meets_PbatchReturnsTheNextWordsInOrder :
    (ready []).pUnit = some unitP ∧ 0 ≤ (0 : Dword).toInt ∧ 0 ≤ (0x7FFFFFFFFFFFFFFF : Dword).toInt :=
  ⟨rfl, by decide, by decide⟩

theorem test_meets_PbatchIsRepeatedPnext32 : (5 : Nat) < 2 ^ 63 ∧ (ready []).pUnit = some unitP ∧ (ready []).cmd = [] :=
  ⟨by decide, rfl, rfl⟩

/-- The default seed and rounds, both ends of the seed range, the smallest round count. -/
theorem test_meets_CinitInstallsTheDigestKey :
    (6#32 : Word) ≠ 0#32 ∧ (1#32 : Word) ≠ 0#32 ∧ (-(2 ^ 63) ≤ (42 : Int) ∧ (42 : Int) ≤ 2 ^ 63 - 1)
    ∧ -(2 ^ 63) ≤ (BitVec.ofInt 128 (-(2 ^ 63))).toInt ∧ (BitVec.ofInt 128 (2 ^ 63 - 1)).toInt ≤ 2 ^ 63 - 1 := by decide

/-- The first seeds outside, on both sides (V-CI-ERR), and the last inside. -/
theorem test_meets_CinitRefusesSeedsOutsideSixtyFourBits :
    (BitVec.ofInt 128 (-(2 ^ 63) - 1)).toInt < -(2 ^ 63) ∧ 2 ^ 63 - 1 < (BitVec.ofInt 128 (2 ^ 63)).toInt
    ∧ -(2 ^ 63) ≤ (BitVec.ofInt 128 (-(2 ^ 63))).toInt ∧ (BitVec.ofInt 128 (2 ^ 63 - 1)).toInt ≤ 2 ^ 63 - 1 := by decide

theorem test_meets_CinitRefusesZeroRounds :
    -(2 ^ 63) ≤ (7 : Qword).toInt ∧ (7 : Qword).toInt ≤ 2 ^ 63 - 1 := by decide

theorem test_meets_DigestMessageDeterminesTagAndSeed :
    (-(2 ^ 63) ≤ (-1 : Int) ∧ (-1 : Int) ≤ 2 ^ 63 - 1) ∧ digestMsg (-1) refDomainC.toList = digestMsg (-1) refDomainC.toList :=
  ⟨by decide, rfl⟩

/-- No words, and the largest count. -/
theorem test_meets_CwordsReturnsTheFirstWordsOfFreshBlocks :
    (ready []).cUnit = some (unitC 0) ∧ 0 ≤ (0 : Dword).toInt ∧ 0 ≤ (0x7FFFFFFFFFFFFFFF : Dword).toInt :=
  ⟨rfl, by decide, by decide⟩

/-- Zero is a datum not above the quotient of the word 0. -/
theorem test_meets_WordToFloat32TruncatesTheQuotient : f32Rat 0 = some 0 ∧ (0 : ℚ) ≤ ((0 : Word).toNat : ℚ) / 2 ^ 32 := by
  have h : f32Read 0 = .fin false 0 (-149) := by decide
  refine ⟨?_, by norm_num⟩
  rw [f32Rat, h]
  norm_num [fvalRat]

theorem test_meets_CunifReturnsTruncatedUniforms :
    (ready []).cUnit = some (unitC 0) ∧ 0 ≤ (3 : Dword).toInt := ⟨rfl, by decide⟩

/-- A range of one value, and the widest. -/
theorem test_meets_CrandiReturnsValuesInTheHalfOpenRange :
    (ready []).cUnit = some (unitC 0) ∧ (5 : Dword).toInt < (6 : Dword).toInt
    ∧ (0x8000000000000000 : Dword).toInt < (0x7FFFFFFFFFFFFFFF : Dword).toInt ∧ 0 ≤ (4 : Dword).toInt :=
  ⟨rfl, by decide, by decide, by decide⟩

theorem test_meets_CrandnPairsTwoRequests :
    (ready []).cUnit = some (unitC 0) ∧ 0 ≤ (9 : Dword).toInt := ⟨rfl, by decide⟩

/-- A configuration with NUM_FINITE: its numerics always gives +0. -/
theorem test_meets_NumFiniteMakesNormalsFinite :
    NumFinite cfg1 ∧ (ready []).cUnit = some (unitC 0) ∧ 0 ≤ (2 : Dword).toInt :=
  ⟨fun _ _ _ _ => show f32Finite 0 = true by decide, rfl, by decide⟩

theorem test_meets_DrawsOnAnUnconstructedUnitAreNotReady :
    State.reset.pUnit = none ∧ State.reset.cUnit = none
    ∧ ∃ t, exec .pdrop State.reset = .next t ∧ Instr.pdrop.opcode ∈ [Opcode.pinit, .pdrop, .cinit, .cdrop] :=
  ⟨rfl, rfl, _, rfl, by decide⟩

/-- `hi` one below `lo`; `hi` equal to `lo`, which is empty for CRANDI only; and a range empty for neither. -/
theorem test_meets_EmptyRangesAreDomainErrors :
    (ready []).pUnit ≠ none ∧ (4 : Dword).toInt < (5 : Dword).toInt ∧ (ready []).cUnit ≠ none
    ∧ (5 : Dword).toInt ≤ (5 : Dword).toInt ∧ (0 : Dword).toInt < (6 : Dword).toInt := by decide

/-- The count -1, and the most negative. -/
theorem test_meets_NegativeCountsAreValidationErrors :
    (0xFFFFFFFFFFFFFFFF : Dword).toInt < 0 ∧ (0x8000000000000000 : Dword).toInt < 0 ∧ (ready []).pUnit ≠ none
    ∧ (ready []).cUnit ≠ none ∧ (0 : Dword).toInt < (6 : Dword).toInt := by decide

/-- The zero word, another word, and arguments and a value of the formula. -/
theorem test_meets_BoxMullerClampsTheZeroWordOnly :
    (0 : Word) = 0#32 ∧ (1 : Word) ≠ 0#32 ∧ (0 : ℝ) ≤ 1 / 2 ∧ (1 / 2 : ℝ) < 1 ∧ ∃ y, IsBmReal (1 / 2) 0 y :=
  ⟨rfl, by decide, by norm_num, by norm_num, _, rfl⟩

/-- A negative extent; the empty shape; the largest product that fits; both ends of a bound. -/
theorem test_meets_ShapesBecomeElementCounts :
    (∃ e ∈ ([2, -1] : List Int), e < 0) ∧ (∀ e ∈ ([] : List Int), 0 ≤ e) ∧ ([] : List Int).prod < 2 ^ 63
    ∧ (∀ e ∈ ([9223372036854775807] : List Int), 0 ≤ e) ∧ ([9223372036854775807] : List Int).prod < 2 ^ 63
    ∧ -(2 ^ 63) ≤ (-9223372036854775808 : Int) ∧ (9223372036854775807 : Int) < 2 ^ 63 := by
  decide

end Sys2Proof.Tests
end

section
/-! PROOFS. What one command reads and writes (R2, R313): the obligation `UnitsDoNotInterfere`. -/

namespace Sys2Proof.Machine

/-- What a P-unit command leaves in its unit and appends to `RSP` is fixed by its unit alone; everything else stays. -/
theorem exec_reads_pUnit (i : Instr) (h : onPUnit i = true) (p : Option PermState) :
    ∃ (p' : Option PermState) (answer : List Word), ∀ (c : Option CtrState) (cmd rsp : List Word),
      exec i { pUnit := p, cUnit := c, cmd := cmd, rsp := rsp }
        = .next { pUnit := p', cUnit := c, cmd := cmd, rsp := rsp ++ answer } := by
  cases i with
  | pinit seed rounds zetas tag =>
    simp only [exec, execPinit, pinitWith]
    split_ifs <;> exact ⟨_, _, fun _ _ _ => rfl⟩
  | pnext32 => cases p <;> exact ⟨_, _, fun _ _ _ => rfl⟩
  | pnextf => cases p <;> exact ⟨_, _, fun _ _ _ => rfl⟩
  | prange lo hi =>
    simp only [exec, execPrange, prange]
    cases p <;> split_ifs <;> exact ⟨_, _, fun _ _ _ => rfl⟩
  | pbatch n =>
    simp only [exec, execPbatch, pbatch]
    cases p <;> split_ifs <;> exact ⟨_, _, fun _ _ _ => rfl⟩
  | pdrop => exact ⟨_, _, fun _ _ _ => rfl⟩
  | cinit | cwords | cunif | crandi | crandn | cdrop => cases h

/-- What a C-unit command leaves in its unit and appends to `RSP` is fixed by its unit alone; everything else stays. -/
theorem exec_reads_cUnit (i : Instr) (h : onPUnit i = false) (c : Option CtrState) :
    ∃ (c' : Option CtrState) (answer : List Word), ∀ (p : Option PermState) (cmd rsp : List Word),
      exec i { pUnit := p, cUnit := c, cmd := cmd, rsp := rsp }
        = .next { pUnit := p, cUnit := c', cmd := cmd, rsp := rsp ++ answer } := by
  cases i with
  | cinit seed rounds tag =>
    simp only [exec, execCinit, cinitWith]
    split_ifs <;> exact ⟨_, _, fun _ _ _ => rfl⟩
  | cwords n =>
    simp only [exec, execCwords, cwords]
    cases c <;> split_ifs <;> exact ⟨_, _, fun _ _ _ => rfl⟩
  | cunif n =>
    simp only [exec, execCunif, cunif]
    cases c <;> split_ifs <;> exact ⟨_, _, fun _ _ _ => rfl⟩
  | crandi low high n =>
    simp only [exec, execCrandi, crandi]
    cases c <;> split_ifs <;> exact ⟨_, _, fun _ _ _ => rfl⟩
  | crandn n =>
    simp only [exec, execCrandn, crandnWith]
    cases c <;> split_ifs <;> exact ⟨_, _, fun _ _ _ => rfl⟩
  | cdrop => exact ⟨_, _, fun _ _ _ => rfl⟩
  | pinit | pnext32 | pnextf | prange | pbatch | pdrop => cases h

/-- Settles O13: the command's own unit fixes its answer, so two states that agree on it are answered alike. -/
theorem unitsDoNotInterfere : Obligations.UnitsDoNotInterfere := by
  rintro i ⟨p, c, cmd, rsp⟩ ⟨p', c', cmd', rsp'⟩
  constructor
  · rintro h rfl
    obtain ⟨u, answer, hexec⟩ := exec_reads_pUnit i h p
    exact ⟨_, _, answer, hexec c cmd rsp, hexec c' cmd' rsp', rfl, rfl, rfl, rfl, rfl, rfl, rfl⟩
  · rintro h rfl
    obtain ⟨u, answer, hexec⟩ := exec_reads_cUnit i h c
    exact ⟨_, _, answer, hexec p cmd rsp, hexec p' cmd' rsp', rfl, rfl, rfl, rfl, rfl, rfl, rfl⟩

end Sys2Proof.Machine
end

section
/-! PROOFS. `rotl32` in plain arithmetic (R10): the obligation `RotationWrapsAndReducesItsAmount`. -/

namespace Sys2Proof.Machine

/-- The two words that a rotation shifts out of one share no bit, so their union is their sum. -/
theorem toNat_shiftLeft_or_shiftRight (a : Word) {m : Nat} (hm : m < 32) :
    ((a <<< m) ||| (a >>> (32 - m))).toNat = a.toNat * 2 ^ m % 2 ^ 32 + a.toNat / 2 ^ (32 - m) := by
  have hsplit : 2 ^ (32 - m) * 2 ^ m = 2 ^ 32 := by rw [← pow_add, Nat.sub_add_cancel hm.le]
  have hlow : a.toNat / 2 ^ (32 - m) < 2 ^ m := by
    rw [Nat.div_lt_iff_lt_mul (Nat.two_pow_pos _), mul_comm, hsplit]
    exact a.isLt
  have hhigh : a.toNat * 2 ^ m % 2 ^ 32 = (a.toNat % 2 ^ (32 - m)) <<< m := by
    rw [Nat.shiftLeft_eq, ← Nat.mul_mod_mul_right, hsplit]
  rw [BitVec.toNat_or, BitVec.toNat_shiftLeft, BitVec.toNat_ushiftRight, Nat.shiftLeft_eq, Nat.shiftRight_eq_div_pow,
    hhigh, Nat.shiftLeft_add_eq_or_of_lt hlow]

/-- Settles O18: a reduced amount of 0 leaves the word, any other brings the shifted-out bits back below. -/
theorem rotationWrapsAndReducesItsAmount : Obligations.RotationWrapsAndReducesItsAmount := by
  intro a n
  simp only [rotl32]
  split_ifs with hm
  · have := a.isLt
    rw [hm]
    omega
  · exact toNat_shiftLeft_or_shiftRight a (Nat.mod_lt n (by decide))

end Sys2Proof.Machine
end

section
/-! PROOFS. Binary64 operations round to nearest, ties to even (R13): the obligation
`Binary64OperationsRoundToNearestEven`. A finite datum is a sign and a magnitude pattern below `2047 * 2^52`; patterns are
read on past that bound as the same format with unbounded exponents, where nearest-even needs no overflow case. The exact
results are held against that grid, and the overflow bound comes last. -/

namespace Sys2Proof.Machine

/-! ## The grid of magnitudes -/

/-- The power of two that magnitude pattern `k` counts in, from `2^-1074`: the subnormals share the first binade's. -/
def magBinade (k : Nat) : Nat := k / 2 ^ 52 - 1

/-- The significand of magnitude pattern `k`, with its hidden bit. -/
def magSig (k : Nat) : Nat := k - magBinade k * 2 ^ 52

/-- The value of a unit in the last place of binade `b`. -/
def ulp (b : Nat) : ℚ := 2 ^ b * 2 ^ (-1074 : Int)

/-- The number that magnitude pattern `k` stands for, the exponent unbounded. -/
def magRat (k : Nat) : ℚ := magSig k * ulp (magBinade k)

theorem ulp_pos (b : Nat) : 0 < ulp b := by
  unfold ulp
  positivity

theorem ulp_add (b c : Nat) : ulp (b + c) = 2 ^ c * ulp b := by
  simp only [ulp, pow_add]
  ring

theorem ulp_eq_zpow (b : Nat) : ulp b = 2 ^ ((b : Int) - 1074) := by
  rw [ulp, sub_eq_add_neg, zpow_add₀ two_ne_zero, zpow_natCast]

theorem magSig_lt (k : Nat) : magSig k < 2 ^ 53 := by
  simp only [magSig, magBinade]
  omega

@[simp] theorem magRat_zero : magRat 0 = 0 := by
  simp [magRat, magSig]

theorem magRat_nonneg (k : Nat) : 0 ≤ magRat k := mul_nonneg (Nat.cast_nonneg _) (ulp_pos _).le

/-- A significand of at most `2^53` on a binade's base stands for that many of its units; `2^53` carries. -/
theorem magRat_base_add {b sig : Nat} (hle : sig ≤ 2 ^ 53) (hge : b = 0 ∨ 2 ^ 52 ≤ sig) :
    magRat (b * 2 ^ 52 + sig) = sig * ulp b := by
  rcases hle.eq_or_lt with rfl | hlt
  · have hb : magBinade (b * 2 ^ 52 + 2 ^ 53) = b + 1 := by
      simp only [magBinade]
      omega
    have hs : magSig (b * 2 ^ 52 + 2 ^ 53) = 2 ^ 52 := by
      rw [magSig, hb]
      omega
    rw [magRat, hb, hs, ulp_add]
    push_cast
    ring
  · have hb : magBinade (b * 2 ^ 52 + sig) = b := by
      simp only [magBinade]
      omega
    have hs : magSig (b * 2 ^ 52 + sig) = sig := by
      rw [magSig, hb]
      omega
    rw [magRat, hb, hs]

/-- The number that the next binade begins with. -/
theorem magRat_binade_end (b : Nat) : magRat (b * 2 ^ 52 + 2 ^ 53) = 2 ^ 53 * ulp b := by
  rw [magRat_base_add le_rfl (.inr (by norm_num)), Nat.cast_pow, Nat.cast_ofNat]

/-- From binade `b` on, every grid number is a whole number of `b`'s units. -/
theorem magRat_multiple {b k : Nat} (h : b ≤ magBinade k) : ∃ j : Nat, magRat k = j * ulp b := by
  obtain ⟨c, hc⟩ := Nat.exists_eq_add_of_le h
  refine ⟨magSig k * 2 ^ c, ?_⟩
  rw [magRat, hc, ulp_add]
  push_cast
  ring

theorem magRat_strictMono : StrictMono magRat := by
  refine strictMono_nat_of_lt_succ fun k => ?_
  have hk : k + 1 = magBinade k * 2 ^ 52 + (magSig k + 1) := by
    simp only [magSig, magBinade]
    omega
  have hge : magBinade k = 0 ∨ 2 ^ 52 ≤ magSig k + 1 := by
    simp only [magSig, magBinade]
    omega
  rw [hk, magRat_base_add (magSig_lt k) hge, magRat]
  exact mul_lt_mul_of_pos_right (by simp) (ulp_pos _)

/-- Up to binade `b` every grid number is below `2^53` of its units. -/
theorem magRat_lt {b k : Nat} (h : magBinade k ≤ b) : magRat k < 2 ^ 53 * ulp b := by
  rw [← magRat_binade_end]
  apply magRat_strictMono
  simp only [magBinade] at h
  omega

/-! ## Nearest on the grid -/

/-- Magnitude pattern `k` is the grid's nearest to `x`, ties to even. -/
def NearestMag (k : Nat) (x : ℚ) : Prop :=
  ∀ j : Nat, |magRat k - x| ≤ |magRat j - x| ∧ (|magRat k - x| = |magRat j - x| → magRat j = magRat k ∨ k % 2 = 0)

/-- The integer `sig` is nearest to `x / p`, ties to even. -/
def NearestMultiple (sig : Nat) (p x : ℚ) : Prop :=
  2 * |sig * p - x| ≤ p ∧ (2 * |sig * p - x| = p → sig % 2 = 0)

/-- No other multiple of `p` is nearer to `x` than the one within half a `p`, or as near unless there is a tie. -/
theorem NearestMultiple.le {sig : Nat} {p x : ℚ} (hp : 0 < p) (h : NearestMultiple sig p x) (j : Nat) :
    |sig * p - x| ≤ |j * p - x| ∧ (|sig * p - x| = |j * p - x| → j = sig ∨ sig % 2 = 0) := by
  obtain ⟨hhalf, htie⟩ := h
  by_cases hj : j = sig
  · subst hj
    exact ⟨le_rfl, fun _ => .inl rfl⟩
  have hgap : p ≤ |(sig : ℚ) * p - j * p| := by
    have hone : (1 : ℚ) ≤ |(sig : ℚ) - j| := by
      have : (1 : Int) ≤ |(sig : Int) - j| := Int.one_le_abs (by omega)
      exact_mod_cast this
    rw [← sub_mul, abs_mul, abs_of_pos hp]
    exact le_mul_of_one_le_left hp.le hone
  have htri := abs_sub_le (sig * p) x (j * p)
  rw [abs_sub_comm x] at htri
  exact ⟨by linarith, fun heq => .inr (htie (by linarith))⟩

/-- What is nearest among the multiples of a binade's unit is nearest on the whole grid, when the exact number does not lie
below the binade. -/
theorem NearestMultiple.nearestMag {b sig : Nat} {x : ℚ} (h : NearestMultiple sig (ulp b) x) (hle : sig ≤ 2 ^ 53)
    (hge : b = 0 ∨ 2 ^ 52 ≤ sig ∧ 2 ^ 52 * ulp b ≤ x) : NearestMag (b * 2 ^ 52 + sig) x := by
  intro j
  rw [magRat_base_add hle (hge.imp_right And.left)]
  rcases le_or_gt b (magBinade j) with hbj | hbj
  · obtain ⟨i, hi⟩ := magRat_multiple hbj
    obtain ⟨hnear, htie⟩ := h.le (ulp_pos b) i
    rw [hi]
    refine ⟨hnear, fun heq => (htie heq).imp (fun his => by rw [his]) fun heven => ?_⟩
    omega
  · obtain ⟨c, rfl⟩ := Nat.exists_eq_add_of_lt hbj
    obtain ⟨-, hx⟩ := hge.resolve_left (by omega)
    have hbelow : magRat j < 2 ^ 52 * ulp (magBinade j + c + 1) := by
      have := magRat_lt (Nat.le_add_right (magBinade j) c)
      rw [ulp_add _ 1]
      linarith
    have hbase := (h.le (ulp_pos _) (2 ^ 52)).1
    rw [Nat.cast_pow, Nat.cast_ofNat, abs_of_nonpos (sub_nonpos.mpr hx)] at hbase
    have hcloser : |sig * ulp (magBinade j + c + 1) - x| < |magRat j - x| := by
      rw [abs_of_neg (a := magRat j - x) (by linarith)]
      linarith
    exact ⟨hcloser.le, fun heq => absurd heq hcloser.ne⟩

/-! ## The overflow bound -/

/-- The infinity's magnitude pattern: the first past the finite data. -/
def magInf : Nat := 2047 * 2 ^ 52

/-- The bound of R13 is the middle between the largest finite magnitude and the next number of the unbounded grid. -/
theorem overflowBound_eq : (2 ^ 1024 - 2 ^ 970 : ℚ) = (2 ^ 53 - 1 / 2) * ulp 2045 := by
  have h971 : ulp 2045 = 2 * 2 ^ 970 := by
    rw [ulp_eq_zpow, ← pow_succ', show ((2045 : Nat) : Int) - 1074 = ((970 + 1 : Nat) : Int) by norm_num, zpow_natCast]
  have h1024 : (2 : ℚ) ^ 1024 = 2 ^ 54 * 2 ^ 970 := by rw [← pow_add]
  rw [h971, h1024]
  generalize (2 : ℚ) ^ 970 = p
  ring

theorem magRat_magInf : magRat magInf = 2 ^ 53 * ulp 2045 := by
  rw [show magInf = 2045 * 2 ^ 52 + 2 ^ 53 by norm_num [magInf], magRat_binade_end]

/-- The largest finite magnitude. -/
theorem magRat_magInf_pred : magRat (magInf - 1) = (2 ^ 53 - 1) * ulp 2045 := by
  rw [show magInf - 1 = 2045 * 2 ^ 52 + (2 ^ 53 - 1) by norm_num [magInf],
    magRat_base_add (by norm_num) (.inr (by norm_num))]
  norm_num

/-- Rounding on the unbounded grid passes the largest finite datum exactly from the bound on; at the bound itself there is
a tie, and the largest finite datum is odd. -/
theorem NearestMag.lt_magInf_iff {k : Nat} {x : ℚ} (h : NearestMag k x) : k < magInf ↔ x < 2 ^ 1024 - 2 ^ 970 := by
  have hu := ulp_pos 2045
  have hmax := magRat_magInf_pred
  have hnext := magRat_magInf
  rw [overflowBound_eq]
  constructor
  · intro hk
    by_contra! hx
    have hle := magRat_strictMono.monotone (Nat.le_pred_of_lt hk)
    rw [Nat.pred_eq_sub_one] at hle
    obtain ⟨hnear, htie⟩ := h magInf
    have habs : |magRat k - x| = x - magRat k := by rw [abs_of_neg (by linarith), neg_sub]
    have hnext' : |magRat magInf - x| ≤ x - magRat k := abs_le.mpr ⟨by linarith, by linarith⟩
    rw [habs] at hnear htie
    rcases htie (le_antisymm hnear hnext') with heq | heven
    · linarith
    · have hge : magRat (magInf - 1) ≤ magRat k := by
        rcases abs_cases (magRat magInf - x) with ⟨h', -⟩ | ⟨h', -⟩ <;> linarith
      have := magRat_strictMono.le_iff_le.mp hge
      simp only [magInf] at *
      omega
  · intro hx
    by_contra! hk
    have hge := magRat_strictMono.monotone hk
    have hnear := (le_abs_self _).trans (h (magInf - 1)).1
    rcases abs_cases (magRat (magInf - 1) - x) with ⟨h', -⟩ | ⟨h', -⟩ <;> linarith

/-! ## Signed data -/

/-- The sign as a factor. -/
def signRat (neg : Bool) : ℚ := if neg then -1 else 1

/-- The pattern of a sign and a magnitude pattern. -/
def signMag (neg : Bool) (mag : Nat) : F64 := BitVec.ofBool neg ++ BitVec.ofNat 63 mag

/-- A sign and a finite magnitude pattern stand for the signed grid number. -/
theorem f64Rat_signMag (neg : Bool) {k : Nat} (h : k < magInf) :
    f64Rat (signMag neg k) = some (signRat neg * magRat k) := by
  rw [f64Rat, signMag, f64Read_signMag neg k h]
  split_ifs with h0
  · have hb : magBinade k = 0 := by
      simp only [magBinade]
      omega
    have hs : magSig k = k % 2 ^ 52 := by
      rw [magSig, hb]
      omega
    simp only [fvalRat, magRat, hb, hs, ulp, signRat, pow_zero, one_mul, mul_assoc]
  · have hb : ((k / 2 ^ 52 : Nat) : Int) - 1075 = (magBinade k : Int) - 1074 := by
      simp only [magBinade]
      omega
    have hs : magSig k = 2 ^ 52 + k % 2 ^ 52 := by
      simp only [magSig, magBinade]
      omega
    simp only [fvalRat, magRat, hb, hs, ulp_eq_zpow, signRat, mul_assoc]

/-- Every finite datum is a sign and a finite magnitude pattern. -/
theorem f64Rat_eq_some {y : F64} {q : ℚ} (h : f64Rat y = some q) : ∃ neg k, q = signRat neg * magRat k := by
  have hlt := y.isLt
  have hy : y = signMag (decide (2 ^ 63 ≤ y.toNat)) (y.toNat % 2 ^ 63) := by
    apply BitVec.eq_of_toNat_eq
    rw [signMag, signMag_toNat _ _ (Nat.mod_lt _ (by norm_num))]
    by_cases hn : 2 ^ 63 ≤ y.toNat <;>
      simp only [hn, decide_true, decide_false, Bool.toNat_true, Bool.toNat_false] <;> omega
  have hk : y.toNat % 2 ^ 63 < magInf := by
    by_contra hk
    have hexp : f64Exp y = 2047 := by
      simp only [f64Exp, BitVec.extractLsb'_toNat, Nat.shiftRight_eq_div_pow, magInf] at *
      omega
    rw [f64Rat, f64Read, if_pos hexp] at h
    split_ifs at h <;> cases h
  rw [hy, f64Rat_signMag _ hk] at h
  exact ⟨_, _, (Option.some.inj h).symm⟩

/-- What `Binary64OperationsRoundToNearestEven` says of one operation: its result and the exact number. -/
def RoundsTo (result : F64) (exact : ℚ) : Prop :=
  (|exact| < 2 ^ 1024 - 2 ^ 970 → ∃ r, f64Rat result = some r ∧ nearestEven result r exact)
  ∧ (2 ^ 1024 - 2 ^ 970 ≤ |exact| → f64Finite result = false)

theorem abs_signRat_mul (neg : Bool) (x : ℚ) : |signRat neg * x| = |x| := by
  cases neg <;> simp [signRat]

/-- A magnitude nearest on the grid gives the nearest datum under its sign: a datum of the other sign is no nearer than
zero. -/
theorem NearestMag.nearestEven {k : Nat} {x : ℚ} (h : NearestMag k x) (hk : k < magInf) (hx : 0 ≤ x) (neg : Bool) :
    nearestEven (signMag neg k) (signRat neg * magRat k) (signRat neg * x) := by
  intro y q hy
  have hlsb : (signMag neg k).getLsbD 0 = false ↔ k % 2 = 0 := by
    rw [BitVec.getLsbD, signMag, signMag_toNat neg k (by simp only [magInf] at hk; omega), Nat.testBit_zero]
    simp only [decide_eq_false_iff_not]
    omega
  obtain ⟨neg', j, rfl⟩ := f64Rat_eq_some hy
  rw [hlsb, ← mul_sub, abs_signRat_mul]
  by_cases hs : neg' = neg
  · subst hs
    rw [← mul_sub, abs_signRat_mul]
    exact ⟨(h j).1, fun heq => ((h j).2 heq).imp_left fun hjk => by rw [hjk]⟩
  · have hopp : |signRat neg' * magRat j - signRat neg * x| = magRat j + x := by
      have hsum : signRat neg' * magRat j - signRat neg * x = signRat neg' * (magRat j + x) := by
        have hneg : signRat neg = -signRat neg' := by cases neg <;> cases neg' <;> simp_all [signRat]
        rw [hneg]
        ring
      rw [hsum, abs_signRat_mul, abs_of_nonneg (add_nonneg (magRat_nonneg j) hx)]
    have hj := magRat_nonneg j
    obtain ⟨hzero, htie⟩ := h 0
    rw [magRat_zero, zero_sub, abs_neg, abs_of_nonneg hx] at hzero htie
    rw [hopp]
    refine ⟨by linarith, fun heq => (htie (by linarith)).imp_left fun hk0 => ?_⟩
    have hj0 : magRat j = 0 := by linarith
    rw [hj0, ← hk0, mul_zero, mul_zero]

/-- The pattern that `f64Round` packs from a magnitude: an infinity from `magInf` on. -/
def packMag (neg : Bool) (mag : Nat) : F64 := if magInf ≤ mag then f64Inf neg else signMag neg mag

theorem f64Finite_f64Inf (neg : Bool) : f64Finite (f64Inf neg) = false := by
  cases neg <;> decide

/-- Packing the nearest magnitude rounds the signed number. -/
theorem NearestMag.roundsTo {k : Nat} {x : ℚ} (h : NearestMag k x) (hx : 0 ≤ x) (neg : Bool) :
    RoundsTo (packMag neg k) (signRat neg * x) := by
  rw [RoundsTo, abs_signRat_mul, abs_of_nonneg hx, ← h.lt_magInf_iff, ← not_lt, ← h.lt_magInf_iff, not_lt, packMag]
  constructor
  · intro hk
    rw [if_neg (not_le.mpr hk)]
    exact ⟨_, f64Rat_signMag neg hk, h.nearestEven hk hx neg⟩
  · intro hk
    rw [if_pos hk, f64Finite_f64Inf]

/-! ## Rounding once -/

/-- The integer `m` carries the number `x` for rounding: it is `x`, or it is `x` cut to an even integer with a sticky bit set
below, which leaves `x` between the same even integers. -/
def Carries (m : Nat) (x : ℚ) : Prop := x = m ∨ (2 ^ 54 ≤ m ∧ m % 2 = 1 ∧ |x - m| < 1)

/-- An even integer up to the carrier is up to the number. -/
theorem Carries.le_of_even {m : Nat} {x : ℚ} (h : Carries m x) {c : Nat} (hc : 2 * c ≤ m) : (2 * c : ℚ) ≤ x := by
  rcases h with rfl | ⟨-, hodd, hx⟩
  · exact_mod_cast hc
  · have hlt : (2 * c + 1 : ℚ) ≤ m := by exact_mod_cast (by omega : 2 * c + 1 ≤ m)
    linarith [(abs_lt.mp hx).1]

theorem roundShift_le (m sh : Nat) : m / 2 ^ sh ≤ roundShift m sh ∧ roundShift m sh ≤ m / 2 ^ sh + 1 := by
  simp only [roundShift]
  split_ifs <;> omega

/-- `roundShift` of the number itself is nearest. -/
theorem roundShift_nearest (m sh : Nat) : NearestMultiple (roundShift m sh) (2 ^ sh) m := by
  obtain ⟨hlow, hhigh, htie⟩ := roundShift_near m sh
  have hlow' : (2 * m : ℚ) ≤ 2 * (roundShift m sh * 2 ^ sh) + 2 ^ sh := by exact_mod_cast hlow
  have hhigh' : (2 * (roundShift m sh * 2 ^ sh) : ℚ) ≤ 2 * m + 2 ^ sh := by exact_mod_cast hhigh
  refine ⟨?_, fun heq => htie ?_⟩
  · rcases abs_cases (roundShift m sh * 2 ^ sh - m : ℚ) with ⟨h, -⟩ | ⟨h, -⟩ <;> linarith
  · rcases abs_cases (roundShift m sh * 2 ^ sh - m : ℚ) with ⟨h, -⟩ | ⟨h, -⟩
    · right
      have : (2 * (roundShift m sh * 2 ^ sh) : ℚ) = 2 * m + 2 ^ sh := by linarith
      exact_mod_cast this
    · left
      have : (2 * m : ℚ) = 2 * (roundShift m sh * 2 ^ sh) + 2 ^ sh := by linarith
      exact_mod_cast this

/-- The sticky bit stands at least two bits below the rounding, so it decides as the number does, and never ties. -/
theorem roundShift_sticky_nearest {m sh : Nat} {x : ℚ} (hsh : 2 ≤ sh) (hodd : m % 2 = 1) (hx : |x - m| < 1) :
    NearestMultiple (roundShift m sh) (2 ^ sh) x := by
  obtain ⟨hlow, hhigh, -⟩ := roundShift_near m sh
  obtain ⟨t, rfl⟩ := Nat.exists_eq_add_of_le hsh
  have hp : (2 : Nat) ^ (2 + t) = 4 * 2 ^ t := by ring
  have hq : roundShift m (2 + t) * (4 * 2 ^ t) = 4 * (roundShift m (2 + t) * 2 ^ t) := mul_left_comm ..
  rw [hp, hq] at hlow hhigh
  have hlow' : (m + 1 : ℚ) ≤ 4 * (roundShift m (2 + t) * 2 ^ t) + 2 * 2 ^ t := by exact_mod_cast (by omega)
  have hhigh' : (4 * (roundShift m (2 + t) * 2 ^ t) + 1 : ℚ) ≤ m + 2 * 2 ^ t := by exact_mod_cast (by omega)
  obtain ⟨hxl, hxh⟩ := abs_lt.mp hx
  have hlt : 2 * |roundShift m (2 + t) * 2 ^ (2 + t) - x| < (2 : ℚ) ^ (2 + t) := by
    rw [pow_add]
    rcases abs_cases (roundShift m (2 + t) * (2 ^ 2 * 2 ^ t) - x : ℚ) with ⟨h, -⟩ | ⟨h, -⟩ <;> linarith
  exact ⟨hlt.le, fun heq => absurd heq hlt.ne⟩

/-- Nearest is the same in every unit. -/
theorem NearestMultiple.scale {sig : Nat} {p x c : ℚ} (h : NearestMultiple sig p x) (hc : 0 < c) :
    NearestMultiple sig (p * c) (x * c) := by
  have habs : 2 * |sig * (p * c) - x * c| = 2 * |sig * p - x| * c := by
    rw [← mul_assoc, ← sub_mul, abs_mul, abs_of_pos hc, mul_assoc]
  rw [NearestMultiple, habs]
  exact ⟨mul_le_mul_of_nonneg_right h.1 hc.le, fun heq => h.2 (mul_right_cancel₀ hc.ne' heq)⟩

/-- The exponent of the unit in the last place that `f64Round` rounds to. -/
def roundExp (m : Nat) (e : Int) : Int := max ((Nat.log2 m : Int) + e - 52) (-1074)

/-- The significand that `f64Round` rounds to. -/
def roundSig (m : Nat) (e : Int) : Nat :=
  if roundExp m e ≤ e then m * 2 ^ (e - roundExp m e).toNat else roundShift m (roundExp m e - e).toNat

theorem f64Round_zero (neg : Bool) (e : Int) : f64Round neg 0 e = packMag neg 0 := by
  simp [f64Round, packMag, magInf, signMag]

theorem f64Round_eq (neg : Bool) {m : Nat} (e : Int) (hm : m ≠ 0) :
    f64Round neg m e = packMag neg ((roundExp m e + 1074).toNat * 2 ^ 52 + roundSig m e) := by
  rw [f64Round, if_neg hm]
  rfl

/-- A sticky bit is never kept: it stands at least two bits below the significand. -/
theorem roundExp_ge_of_sticky {m : Nat} (hm : 2 ^ 54 ≤ m) (e : Int) : e + 2 ≤ roundExp m e := by
  have hlog : 54 ≤ Nat.log2 m := (Nat.le_log2 (by omega)).mpr hm
  simp only [roundExp]
  omega

/-- A power of two, from a lower one: the shift between two exponents. -/
theorem two_pow_sub_mul_zpow {lo hi : Int} (h : lo ≤ hi) : (2 : ℚ) ^ (hi - lo).toNat * 2 ^ lo = 2 ^ hi := by
  rw [← zpow_natCast, ← zpow_add₀ two_ne_zero, Int.toNat_of_nonneg (by omega), sub_add_cancel]

/-- Where every bit is kept, nothing is rounded. -/
theorem roundSig_exact {m : Nat} {x : ℚ} (h : Carries m x) {e : Int} (he : roundExp m e ≤ e) :
    (roundSig m e : ℚ) * 2 ^ roundExp m e = x * 2 ^ e := by
  have hx : x = m := h.resolve_right fun hs => by
    have := roundExp_ge_of_sticky hs.1 e
    omega
  rw [roundSig, if_pos he, hx, Nat.cast_mul, Nat.cast_pow, Nat.cast_ofNat, mul_assoc, two_pow_sub_mul_zpow he]

/-- The rounded significand is the nearest one. -/
theorem roundSig_nearest {m : Nat} {x : ℚ} (h : Carries m x) (e : Int) :
    NearestMultiple (roundSig m e) (2 ^ roundExp m e) (x * 2 ^ e) := by
  by_cases he : roundExp m e ≤ e
  · have hp : (0 : ℚ) < 2 ^ roundExp m e := by positivity
    rw [NearestMultiple, roundSig_exact h he, sub_self, abs_zero, mul_zero]
    exact ⟨hp.le, fun heq => absurd heq hp.ne⟩
  · rw [← two_pow_sub_mul_zpow (le_of_not_ge he), roundSig, if_neg he]
    refine NearestMultiple.scale ?_ (by positivity)
    rcases h with rfl | ⟨hm, hodd, hx⟩
    · exact roundShift_nearest m _
    · have := roundExp_ge_of_sticky hm e
      exact roundShift_sticky_nearest (by omega) hodd hx

/-- The rounded significand has at most 53 bits, or carries to `2^53`. -/
theorem roundSig_le (m : Nat) (e : Int) : roundSig m e ≤ 2 ^ 53 := by
  have hlog : m < 2 ^ (Nat.log2 m + 1) := Nat.lt_log2_self
  have hexp : (Nat.log2 m : Int) + e - 52 ≤ roundExp m e := le_max_left _ _
  unfold roundSig
  split_ifs with he
  · calc m * 2 ^ (e - roundExp m e).toNat ≤ 2 ^ (Nat.log2 m + 1) * 2 ^ (e - roundExp m e).toNat :=
          Nat.mul_le_mul_right _ hlog.le
      _ ≤ 2 ^ 53 := by
          rw [← pow_add]
          exact Nat.pow_le_pow_right two_pos (by omega)
  · refine (roundShift_le m _).2.trans ((Nat.div_lt_iff_lt_mul (Nat.two_pow_pos _)).mpr (hlog.trans_le ?_))
    rw [← pow_add]
    exact Nat.pow_le_pow_right two_pos (by omega)

/-- Above the subnormals the significand has its full 53 bits, and the number does not lie below the binade. -/
theorem roundSig_ge {m : Nat} {x : ℚ} (h : Carries m x) (hm : m ≠ 0) {e : Int} (hq : roundExp m e ≠ -1074) :
    2 ^ 52 ≤ roundSig m e ∧ (2 : ℚ) ^ 52 * 2 ^ roundExp m e ≤ x * 2 ^ e := by
  have hlog : 2 ^ Nat.log2 m ≤ m := Nat.log2_self_le hm
  have hexp : roundExp m e = (Nat.log2 m : Int) + e - 52 := by
    simp only [roundExp] at hq ⊢
    omega
  by_cases he : roundExp m e ≤ e
  · have hsig : 2 ^ 52 ≤ roundSig m e := by
      rw [roundSig, if_pos he]
      calc 2 ^ 52 = 2 ^ Nat.log2 m * 2 ^ (e - roundExp m e).toNat := by
            rw [← pow_add]
            congr 1
            omega
        _ ≤ m * 2 ^ (e - roundExp m e).toNat := Nat.mul_le_mul_right _ hlog
    refine ⟨hsig, ?_⟩
    rw [← roundSig_exact h he]
    exact mul_le_mul_of_nonneg_right (by exact_mod_cast hsig) (by positivity)
  · have hm52 : 2 ^ 52 * 2 ^ (roundExp m e - e).toNat ≤ m := by
      rw [← pow_add, show 52 + (roundExp m e - e).toNat = Nat.log2 m by omega]
      exact hlog
    constructor
    · rw [roundSig, if_neg he]
      exact ((Nat.le_div_iff_mul_le (Nat.two_pow_pos _)).mpr hm52).trans (roundShift_le m _).1
    · have hx := h.le_of_even (c := 2 ^ 51 * 2 ^ (roundExp m e - e).toNat) (by omega)
      rw [Nat.cast_mul, Nat.cast_pow, Nat.cast_pow, Nat.cast_ofNat] at hx
      rw [← two_pow_sub_mul_zpow (le_of_not_ge he), ← mul_assoc]
      exact mul_le_mul_of_nonneg_right (by linarith) (by positivity)

/-- Zero is a datum, under either sign. -/
theorem zero_roundsTo (neg : Bool) : RoundsTo (packMag neg 0) 0 := by
  have hnear : NearestMag 0 0 := fun j => ⟨by simp, fun _ => .inr rfl⟩
  simpa using hnear.roundsTo le_rfl neg

/-- `f64Round` rounds the number that its integer carries, once. -/
theorem f64Round_roundsTo {m : Nat} {x : ℚ} (h : Carries m x) (neg : Bool) (e : Int) :
    RoundsTo (f64Round neg m e) (signRat neg * (x * 2 ^ e)) := by
  have hx : 0 ≤ x := by simpa using h.le_of_even (c := 0) (Nat.zero_le _)
  by_cases hm : m = 0
  · subst hm
    obtain rfl : x = 0 := by simpa [Carries] using h
    simpa [f64Round_zero] using zero_roundsTo neg
  · have hulp : ulp (roundExp m e + 1074).toNat = 2 ^ roundExp m e := by
      have : -1074 ≤ roundExp m e := le_max_right _ _
      rw [ulp_eq_zpow, Int.toNat_of_nonneg (by omega), add_sub_cancel_right]
    have hnear := roundSig_nearest h e
    rw [f64Round_eq neg e hm]
    rw [← hulp] at hnear
    refine (hnear.nearestMag (roundSig_le m e) ?_).roundsTo (by positivity) neg
    rw [hulp]
    by_cases hq : roundExp m e = -1074
    · exact .inl (by rw [hq]; rfl)
    · exact .inr (roundSig_ge h hm hq)

/-! ## The three operations -/

/-- A finite datum as it is read. -/
theorem f64Read_of_f64Rat {x : F64} {a : ℚ} (h : f64Rat x = some a) :
    ∃ neg m e, f64Read x = .fin neg m e ∧ m < 2 ^ 53 ∧ a = signRat neg * (m * 2 ^ e) := by
  have hfrac : f64Frac x < 2 ^ 52 := (x.extractLsb' 0 52).isLt
  cases hr : f64Read x with
  | nan => simp [f64Rat, hr, fvalRat] at h
  | inf neg => simp [f64Rat, hr, fvalRat] at h
  | fin neg m e =>
    have hm : m < 2 ^ 53 := by
      unfold f64Read at hr
      split_ifs at hr <;> cases hr <;> omega
    refine ⟨neg, m, e, rfl, hm, ?_⟩
    simp only [f64Rat, hr, fvalRat, Option.some.injEq] at h
    rw [← h, signRat, mul_assoc]

theorem signRat_xor (a b : Bool) : signRat (a ^^ b) = signRat a * signRat b := by
  cases a <;> cases b <;> simp [signRat]

/-- The aligned integer is the datum in units of `2^base`. -/
theorem fAlign_mul_zpow (neg : Bool) (m : Nat) {e base : Int} (h : base ≤ e) :
    (fAlign neg m e base : ℚ) * 2 ^ base = signRat neg * (m * 2 ^ e) := by
  have hunits : ((m * 2 ^ (e - base).toNat : Nat) : ℚ) * 2 ^ base = m * 2 ^ e := by
    rw [Nat.cast_mul, Nat.cast_pow, Nat.cast_ofNat, mul_assoc, two_pow_sub_mul_zpow h]
  rw [← hunits]
  cases neg <;> simp [fAlign, signRat]

/-- An integer is its sign times its magnitude. -/
theorem signRat_mul_natAbs (v : Int) : signRat (decide (v < 0)) * (v.natAbs : ℚ) = v := by
  rw [Nat.cast_natAbs, Int.cast_abs]
  by_cases hv : v < 0
  · rw [abs_of_neg (by exact_mod_cast hv)]
    simp [signRat, hv]
  · rw [abs_of_nonneg (by exact_mod_cast not_lt.mp hv)]
    simp [signRat, hv]

/-- A quotient with a sticky bit below it carries twice the exact quotient, if it is long enough where it is not exact. -/
theorem sticky_carries {num n : Nat} (hn : n ≠ 0) (hlong : num % n ≠ 0 → 2 ^ 53 ≤ num / n) :
    Carries (2 * (num / n) + if num % n = 0 then 0 else 1) (2 * num / n) := by
  have hn' : (0 : ℚ) < n := by exact_mod_cast Nat.pos_of_ne_zero hn
  have hquot : (2 * num / n : ℚ) = 2 * (num / n : Nat) + 2 * ((num % n : Nat) / n) := by
    have hdiv : (n * (num / n : Nat) + (num % n : Nat) : ℚ) = num := by exact_mod_cast Nat.div_add_mod num n
    rw [← hdiv]
    field_simp
  rw [hquot]
  split_ifs with hr
  · left
    simp [hr]
  · have hpos : (0 : ℚ) < (num % n : Nat) / n := div_pos (by exact_mod_cast Nat.pos_of_ne_zero hr) hn'
    have hone : ((num % n : Nat) / n : ℚ) < 1 :=
      (div_lt_one hn').mpr (by exact_mod_cast Nat.mod_lt num (Nat.pos_of_ne_zero hn))
    have := hlong hr
    refine .inr ⟨by omega, by omega, ?_⟩
    rw [Nat.cast_add, Nat.cast_mul, Nat.cast_two, Nat.cast_one, abs_lt]
    constructor <;> linarith

section
variable {x y : F64} {a b : ℚ} (hx : f64Rat x = some a) (hy : f64Rat y = some b)
include hx hy

theorem f64Add_roundsTo : RoundsTo (f64Add x y) (a + b) := by
  obtain ⟨s, m, e, hxr, -, rfl⟩ := f64Read_of_f64Rat hx
  obtain ⟨t, n, f, hyr, -, rfl⟩ := f64Read_of_f64Rat hy
  rw [← fAlign_mul_zpow s m (min_le_left e f), ← fAlign_mul_zpow t n (min_le_right e f), ← add_mul, ← Int.cast_add]
  simp only [f64Add, hxr, hyr]
  generalize fAlign s m e (min e f) + fAlign t n f (min e f) = v
  split_ifs with hv
  · simpa [hv, packMag, magInf, signMag] using zero_roundsTo (s && t)
  · rw [← signRat_mul_natAbs, mul_assoc]
    exact f64Round_roundsTo (.inl rfl) _ _

theorem f64Mul_roundsTo : RoundsTo (f64Mul x y) (a * b) := by
  obtain ⟨s, m, e, hxr, -, rfl⟩ := f64Read_of_f64Rat hx
  obtain ⟨t, n, f, hyr, -, rfl⟩ := f64Read_of_f64Rat hy
  have hprod : signRat s * (m * 2 ^ e) * (signRat t * (n * 2 ^ f))
      = signRat (s ^^ t) * ((m * n : Nat) * 2 ^ (e + f)) := by
    rw [signRat_xor, zpow_add₀ two_ne_zero, Nat.cast_mul]
    ring
  simp only [f64Mul, hxr, hyr]
  rw [hprod]
  exact f64Round_roundsTo (.inl rfl) _ _

theorem f64Div_roundsTo (hb : b ≠ 0) : RoundsTo (f64Div x y) (a / b) := by
  obtain ⟨s, m, e, hxr, -, rfl⟩ := f64Read_of_f64Rat hx
  obtain ⟨t, n, f, hyr, hn53, rfl⟩ := f64Read_of_f64Rat hy
  have hn : n ≠ 0 := by
    rintro rfl
    simp at hb
  have hlong : m * 2 ^ 120 % n ≠ 0 → 2 ^ 53 ≤ m * 2 ^ 120 / n := fun hr => by
    have hm : m ≠ 0 := by
      rintro rfl
      simp at hr
    rw [Nat.le_div_iff_mul_le (Nat.pos_of_ne_zero hn)]
    omega
  have hquot : signRat s * (m * 2 ^ e) / (signRat t * (n * 2 ^ f))
      = signRat (s ^^ t) * (2 * (m * 2 ^ 120 : Nat) / n * 2 ^ (e - f - 121)) := by
    have hn' : (n : ℚ) ≠ 0 := by exact_mod_cast hn
    have hsign : signRat (s ^^ t) = signRat s / signRat t := by cases s <;> cases t <;> simp [signRat]
    have ht : signRat t ≠ 0 := by cases t <;> simp [signRat]
    have hscale : (2 : ℚ) ^ (e - f - 121) = 2 ^ e / 2 ^ f / (2 * 2 ^ 120) := by
      rw [zpow_sub₀ two_ne_zero, zpow_sub₀ two_ne_zero]
      norm_num
    rw [hsign, hscale, Nat.cast_mul, Nat.cast_pow, Nat.cast_ofNat]
    field_simp
  simp only [f64Div, hxr, hyr, if_neg hn]
  rw [hquot]
  exact f64Round_roundsTo (sticky_carries hn hlong) _ _

end

/-- Settles O23, one lemma per operation. -/
theorem binary64OperationsRoundToNearestEven : Obligations.Binary64OperationsRoundToNearestEven :=
  fun _ _ _ _ hx hy => ⟨f64Add_roundsTo hx hy, f64Mul_roundsTo hx hy, fun hb => f64Div_roundsTo hx hy hb⟩

end Sys2Proof.Machine
end

section
/-! PROOFS. What one step does to each unit (10_state.md): the obligations `StepKeepsTheUnitInvariants`,
`OnlyInitChangesKeysScheduleAndRounds`, `OnlyInitAndDropMoveTheReadyBits`, `ResetHasTheUnitInvariants` and
`ResetClearsReadyBitsAndStreams`. The effect of a step on a unit is said once, as a relation between the unit before and
the unit after, and what that relation keeps is proved once for both units. -/

namespace Sys2Proof

/-! ## The opcode of a decoded command -/

/-- The operand reader gives a command of the opcode that it was asked for. -/
theorem readOperands_opcode {o : Opcode} {h : Word} {ops : List Word} {i : Instr} (hr : readOperands o h ops = .ok i) :
    i.opcode = o := by
  cases o with
  | pinit =>
    simp only [readOperands, readPinit] at hr
    split at hr <;> cases hr
    rfl
  | cinit =>
    simp only [readOperands, readCinit] at hr
    split at hr <;> cases hr
    rfl
  | pnext32 | pnextf | prange | pbatch | pdrop | cwords | cunif | crandi | crandn | cdrop =>
    cases hr
    rfl

/-- A command decodes only under a legal header of its own opcode (R104). -/
theorem checkHeader_of_decode {h : Word} {tail rest : List Word} {i : Instr}
    (hd : decode (h :: tail) = .command i rest) : checkHeader h = .ok i.opcode := by
  simp only [decode] at hd
  split_ifs at hd
  split at hd
  case h_1 => cases hd
  case h_2 o hc =>
    split at hd
    case h_1 => cases hd
    case h_2 hr =>
      cases hd
      rw [hc, readOperands_opcode hr]

end Sys2Proof

namespace Sys2Proof.Machine

/-- The OPC byte of the header names the decoded command. -/
theorem opcNum_of_decode {h : Word} {tail rest : List Word} {i : Instr}
    (hd : decode (h :: tail) = .command i rest) : opcNum h = i.opcode.byte.toNat := by
  obtain ⟨hopc, -, -⟩ := checkHeader_ok (checkHeader_of_decode hd)
  rw [← hopc, hdrOpc_toNat, opcNum]

/-! ## The effect of a command on each unit -/

/-- What a command with OPC byte `opc` can do to a unit: leave it, draw from it `n` times, install a unit, drop it. The
parameters say what drawing leaves, which units are installed, and the OPC bytes of the unit's INIT and DROP. -/
inductive UnitEffect {α : Type} (after : α → Nat → α) (Installed : α → Prop) (init drop opc : Nat) :
    Option α → Option α → Prop
  | kept (p : Option α) : UnitEffect after Installed init drop opc p p
  | drawn (u : α) (n : Nat) : UnitEffect after Installed init drop opc (some u) (some (after u n))
  | initialised {p : Option α} {v : α} (hopc : opc = init) (hv : Installed v) :
      UnitEffect after Installed init drop opc p (some v)
  | dropped {p : Option α} (hopc : opc = drop) : UnitEffect after Installed init drop opc p none

/-- The P-units that a PINIT commits (R140): expanded with a positive round count. -/
def PInstalled (v : PermState) : Prop :=
  ∃ seed rounds z tag, rounds ≠ 0#32 ∧ v = expandP Config.CFG seed rounds z tag

/-- The C-units that a CINIT commits (R173 to R176). -/
def CInstalled (v : CtrState) : Prop :=
  ∃ seed rounds tag, rounds ≠ 0#32 ∧ v = expandC Config.CFG seed rounds tag

/-- What a command can do to the P-unit. -/
abbrev PEffect (opc : Nat) : Option PermState → Option PermState → Prop :=
  UnitEffect pAfter PInstalled 0x10 0x1F opc

/-- What a command can do to the C-unit. -/
abbrev CEffect (opc : Nat) : Option CtrState → Option CtrState → Prop :=
  UnitEffect cAfter CInstalled 0x20 0x2F opc

section
variable {opc : Nat} {p : Option PermState} {u : PermState} {c : Option CtrState} {v : CtrState}

theorem PEffect.of_advance (hu : p = some u) : PEffect opc p (some (advance u).2) := by
  rw [hu, advance_snd, ← pAfter_one]
  exact .drawn u 1

theorem PEffect.of_draws (hu : p = some u) (n : Nat) : PEffect opc p (some (draws n u).2) := by
  rw [hu, draws_eq]
  exact .drawn u n

theorem CEffect.of_request (hv : c = some v) (n : Nat) : CEffect opc c (some (request n v).2) := by
  rw [hv, request_eq]
  exact .drawn v _

/-- Two requests in a row (R262) are blocks in a row. -/
theorem CEffect.of_two_requests (hv : c = some v) (m n : Nat) :
    CEffect opc c (some (request n (request m v).2).2) := by
  rw [hv, request_eq, request_eq, cAfter_add]
  exact .drawn v _

end

/-- A command writes its own unit only, in the terms of `exec`'s result. -/
theorem exec_other_unit {i : Instr} {s t : State} (h : exec i s = .next t) :
    (onPUnit i = true → t.cUnit = s.cUnit) ∧ (onPUnit i = false → t.pUnit = s.pUnit) := by
  obtain ⟨t', ht', -, -, -, -, -, -, hc, hp⟩ := exec_answers i s
  cases h.symm.trans ht'
  exact ⟨hc, hp⟩

/-- Every command does to the P-unit one of the four things. -/
theorem exec_pEffect {i : Instr} {s t : State} (h : exec i s = .next t) :
    PEffect i.opcode.byte.toNat s.pUnit t.pUnit := by
  cases i with
  | pinit seed rounds zetas tag =>
    cases h
    simp only [pinitWith]
    split_ifs with hrounds
    · exact .kept _
    · exact .kept _
    · exact .initialised rfl ⟨_, _, _, _, hrounds, rfl⟩
  | pnext32 =>
    cases h
    unfold pnext32
    split
    · exact .kept _
    · exact PEffect.of_advance ‹_›
  | pnextf =>
    cases h
    unfold pnextf
    split
    · exact .kept _
    · exact PEffect.of_advance ‹_›
  | prange lo hi =>
    cases h
    unfold prange
    split
    · exact .kept _
    · split_ifs
      · exact .kept _
      · exact PEffect.of_advance ‹_›
  | pbatch n =>
    cases h
    unfold pbatch
    split
    · exact .kept _
    · split_ifs
      · exact .kept _
      · exact PEffect.of_draws ‹_› _
  | pdrop =>
    cases h
    exact .dropped rfl
  | cinit | cwords | cunif | crandi | crandn | cdrop =>
    rw [(exec_other_unit h).2 rfl]
    exact .kept _

/-- Every command does to the C-unit one of the four things. -/
theorem exec_cEffect {i : Instr} {s t : State} (h : exec i s = .next t) :
    CEffect i.opcode.byte.toNat s.cUnit t.cUnit := by
  cases i with
  | cinit seed rounds tag =>
    cases h
    simp only [cinitWith]
    split_ifs with hseed hrounds
    · exact .kept _
    · exact .kept _
    · exact .initialised rfl ⟨_, _, _, hrounds, rfl⟩
  | cwords n =>
    cases h
    unfold cwords
    split
    · exact .kept _
    · split_ifs
      · exact .kept _
      · exact CEffect.of_request ‹_› _
  | cunif n =>
    cases h
    unfold cunif
    split
    · exact .kept _
    · split_ifs
      · exact .kept _
      · exact CEffect.of_request ‹_› _
  | crandi low high n =>
    cases h
    unfold crandi
    split
    · exact .kept _
    · split_ifs
      · exact .kept _
      · exact .kept _
      · exact CEffect.of_request ‹_› _
  | crandn n =>
    cases h
    unfold crandnWith
    split
    · exact .kept _
    · split_ifs
      · exact .kept _
      · exact CEffect.of_two_requests ‹_› _ _
  | cdrop =>
    cases h
    exact .dropped rfl
  | pinit | pnext32 | pnextf | prange | pbatch | pdrop =>
    rw [(exec_other_unit h).1 rfl]
    exact .kept _

/-! ## What the four effects keep -/

namespace UnitEffect

section
variable {α : Type} {after : α → Nat → α} {Installed : α → Prop} {init drop opc : Nat} {p p' : Option α}

/-- A property of a unit that drawing keeps and every installed unit has. -/
theorem keeps_property (h : UnitEffect after Installed init drop opc p p') {P : α → Prop}
    (hdrawn : ∀ u n, P u → P (after u n)) (hinst : ∀ v, Installed v → P v) (hp : ∀ u, p = some u → P u) :
    ∀ v, p' = some v → P v := by
  cases h with
  | kept => exact hp
  | drawn u n =>
    rintro _ ⟨⟩
    exact hdrawn u n (hp u rfl)
  | initialised _ hv =>
    rintro _ ⟨⟩
    exact hinst _ hv
  | dropped => rintro _ ⟨⟩

/-- A part of a unit that drawing does not write: of the effects that leave the unit ready, only INIT's does. -/
theorem keeps_part {u v : α} (h : UnitEffect after Installed init drop opc (some u) (some v)) (hopc : opc ≠ init)
    {β : Type} (part : α → β) (hdrawn : ∀ u n, part (after u n) = part u) : part v = part u := by
  cases h with
  | kept => rfl
  | drawn u n => exact hdrawn u n
  | initialised hinit => exact absurd hinit hopc

/-- A ready bit that moves was set by INIT or cleared by DROP. -/
theorem init_or_drop_of_ready_ne (h : UnitEffect after Installed init drop opc p p') (hne : p'.isSome ≠ p.isSome) :
    opc = init ∨ opc = drop := by
  cases h with
  | kept => exact absurd rfl hne
  | drawn => exact absurd rfl hne
  | initialised hopc => exact .inl hopc
  | dropped hopc => exact .inr hopc

/-- Only DROP clears a ready bit. -/
theorem stays_ready (h : UnitEffect after Installed init drop opc p p') (hopc : opc ≠ drop) (hp : p.isSome = true) :
    p'.isSome = true := by
  cases h with
  | kept => exact hp
  | drawn => rfl
  | initialised => rfl
  | dropped hdrop => exact absurd hdrop hopc

end

end UnitEffect

/-! ## The effect of a step -/

/-- The engine steps only with a header word at the head of `CMD` (R86). -/
theorem exists_header_of_step {s t : State} (h : step s = .next t) : ∃ w tail, s.cmd = w :: tail := by
  cases hcmd : s.cmd with
  | nil =>
    rw [step_of_incomplete (by rw [hcmd]; rfl)] at h
    cases h
  | cons w tail => exact ⟨w, tail, rfl⟩

/-- A step does to each unit what the command that its header names can do; an illegal command leaves both (R306). -/
theorem step_effect {s t : State} {w : Word} {tail : List Word} (hcmd : s.cmd = w :: tail) (h : step s = .next t) :
    PEffect (opcNum w) s.pUnit t.pUnit ∧ CEffect (opcNum w) s.cUnit t.cUnit := by
  cases hd : decode s.cmd with
  | incomplete =>
    rw [step_of_incomplete hd] at h
    cases h
  | illegal opc why rest =>
    rw [step_of_illegal hd] at h
    cases h
    exact ⟨.kept _, .kept _⟩
  | command i rest =>
    rw [step_of_command hd] at h
    rw [hcmd] at hd
    rw [opcNum_of_decode hd]
    have peff := exec_pEffect h
    have ceff := exec_cEffect h
    rw [popCommand_pUnit] at peff
    rw [popCommand_cUnit] at ceff
    exact ⟨peff, ceff⟩

/-! ## The units' invariants -/

/-- Every schedule entry is a rotation amount in [1,30] (R149, R32). -/
@[simp] theorem rotLegal_schedEntry (t : F64) : rotLegal (schedEntry t) = true := by
  have hrange : 1 ≤ (schedEntry t).toNat ∧ (schedEntry t).toNat ≤ 30 := by
    simp only [schedEntry]
    split_ifs
    · decide
    · rw [BitVec.toNat_ofNat]
      omega
  exact decide_eq_true hrange

/-- A round count that is not 0 is positive (R33, R39). -/
theorem one_le_rounds {rounds : Word} (h : rounds ≠ 0#32) : 1 ≤ rounds.toNat := by
  bv_omega

theorem PInstalled.legal {v : PermState} (h : PInstalled v) : v.legal = true := by
  obtain ⟨seed, rounds, z, tag, hrounds, rfl⟩ := h
  simp [PermState.legal, expandP, schedule, octList, one_le_rounds hrounds]

theorem CInstalled.legal {v : CtrState} (h : CInstalled v) : v.legal Config.CFG = true := by
  obtain ⟨seed, rounds, tag, hrounds, rfl⟩ := h
  simp [CtrState.legal, expandC, one_le_rounds hrounds]

/-- Legality of the P-unit does not read `s`, and drawing writes nothing else. -/
@[simp] theorem pAfter_legal (u : PermState) (n : Nat) : (pAfter u n).legal = u.legal := rfl

/-- Legality of the C-unit does not read `ctr`, and drawing writes nothing else. -/
@[simp] theorem cAfter_legal (cfg : Cfg) (u : CtrState) (q : Nat) : (cAfter u q).legal cfg = u.legal cfg := rfl

/-- Settles O10: drawing keeps a unit's invariant, and the INITs install units that have it. -/
theorem stepKeepsTheUnitInvariants : Obligations.StepKeepsTheUnitInvariants := by
  rintro s t ⟨hp, hc⟩ hstep
  obtain ⟨w, tail, hcmd⟩ := exists_header_of_step hstep
  obtain ⟨peff, ceff⟩ := step_effect hcmd hstep
  constructor
  · exact peff.keeps_property (fun u n hu => (pAfter_legal u n).trans hu) (fun _ => PInstalled.legal) hp
  · exact ceff.keeps_property (fun u q hu => (cAfter_legal _ u q).trans hu) (fun _ => CInstalled.legal) hc

/-! ## Keys, schedule, round counts and ready bits -/

/-- Settles O14: drawing writes none of these fields, so only INIT does. -/
theorem onlyInitChangesKeysScheduleAndRounds : Obligations.OnlyInitChangesKeysScheduleAndRounds := by
  intro s t h tail hcmd hstep
  obtain ⟨peff, ceff⟩ := step_effect hcmd hstep
  constructor
  · intro hopc u v hu hv
    rw [hu, hv] at peff
    exact ⟨peff.keeps_part hopc PermState.k pAfter_k, peff.keeps_part hopc PermState.r pAfter_r,
      peff.keeps_part hopc PermState.rounds pAfter_rounds⟩
  · intro hopc u v hu hv
    rw [hu, hv] at ceff
    exact ⟨ceff.keeps_part hopc CtrState.key cAfter_key, ceff.keeps_part hopc CtrState.kmix cAfter_kmix,
      ceff.keeps_part hopc CtrState.rounds cAfter_rounds⟩

/-- Settles O15: INIT's effect leaves a unit, DROP's leaves none, and the other two leave the ready bit. -/
theorem onlyInitAndDropMoveTheReadyBits : Obligations.OnlyInitAndDropMoveTheReadyBits := by
  intro s t h tail hcmd hstep
  obtain ⟨peff, ceff⟩ := step_effect hcmd hstep
  exact ⟨peff.init_or_drop_of_ready_ne, ceff.init_or_drop_of_ready_ne,
    fun hopc => peff.stays_ready (by omega), fun hopc => ceff.stays_ready (by omega)⟩

/-! ## Reset -/

/-- Settles O11: no unit is ready at reset, so neither invariant has a unit to speak of. -/
theorem resetHasTheUnitInvariants : Obligations.ResetHasTheUnitInvariants :=
  ⟨fun _ hu => (nomatch hu), fun _ hu => (nomatch hu)⟩

/-- Settles O16: reset gives one state, whatever the state before it. -/
theorem resetClearsReadyBitsAndStreams : Obligations.ResetClearsReadyBitsAndStreams :=
  fun _ => ⟨rfl, rfl, rfl, rfl, rfl⟩

end Sys2Proof.Machine
end

section
/-! PROOFS. The two streams (20_memory.md) and the block function (43_block_function.md): the obligations
`StepRunsTheDecodedCommand`, `StepsExactlyWhenACommandIsComplete`, `EveryStepAnswersItsCommandOnce`,
`TakingResponsesDoesNotDisturbTheEngine` and `BlockIsTheKeyedCounterAfterTheRounds`. The cut that the decoder makes at a
complete command is said once; the step on a complete and on an incomplete command follows from it. -/

namespace Sys2Proof

/-! ## The cut at the head of a stream -/

/-- Every command takes its header at least (R105). -/
theorem one_le_cmdLen (h : Word) : 1 ≤ cmdLen h := by
  unfold cmdLen
  split
  case h_1 o _ =>
    cases o with
    | pinit | cinit =>
      simp only [legalLen, Opcode.format, reduceCtorEq, ↓reduceIte]
      omega
    | pnext32 | pnextf | prange | pbatch | pdrop | cwords | cunif | crandi | crandn | cdrop =>
      simp [legalLen, Opcode.format]
  case h_2 => exact le_rfl

/-- The words after the command at the head of a stream begin among those after its header. -/
theorem drop_cmdLen_cons (h : Word) (tail : List Word) : (h :: tail).drop (cmdLen h) = tail.drop (cmdLen h - 1) := by
  obtain ⟨n, hn⟩ := Nat.exists_eq_add_of_le' (one_le_cmdLen h)
  rw [hn, List.drop_succ_cons, Nat.add_sub_cancel]

/-- A complete command, legal or not, is cut off by the length that its header gives (R105, R111, R112). -/
theorem decode_of_complete {h : Word} {tail : List Word} (hlen : cmdLen h ≤ (h :: tail).length) :
    (∃ why, decode (h :: tail) = .illegal (hdrOpc h) why ((h :: tail).drop (cmdLen h)))
    ∨ ∃ i, decode (h :: tail) = .command i ((h :: tail).drop (cmdLen h)) := by
  cases hc : checkHeader h with
  | error why =>
    have hone : cmdLen h = 1 := by simp only [cmdLen, hc]
    exact .inl ⟨why, by rw [decode_of_illegal tail hc, hone, List.drop_one, List.tail_cons]⟩
  | ok o =>
    have hops : (tail.take (cmdLen h - 1)).length = legalLen o h - 1 := by
      rw [List.length_cons] at hlen
      have hlegal : cmdLen h = legalLen o h := by simp only [cmdLen, hc]
      rw [List.length_take, ← hlegal]
      omega
    have hd := decode_of_legal (tail.drop (cmdLen h - 1)) hc hops
    rw [List.take_append_drop, ← drop_cmdLen_cons] at hd
    cases hr : readOperands o h (tail.take (cmdLen h - 1)) with
    | error why => exact .inl ⟨why, by rw [hd, hr]⟩
    | ok i => exact .inr ⟨i, by rw [hd, hr]⟩

end Sys2Proof

namespace Sys2Proof.Machine

/-! ## The step on a complete and on an incomplete command -/

/-- A complete command with header `h` stands at the head of `CMD` (R86). -/
def CommandStands (s : State) (h : Word) : Prop := ∃ tail, s.cmd = h :: tail ∧ cmdLen h ≤ s.cmd.length

/-- The step at a complete command: its words leave `CMD`, and it is answered as illegal or its meaning runs (R82,
R111, R112). -/
theorem step_of_commandStands {s : State} {h : Word} (hs : CommandStands s h) :
    step s = .next (raiseError (hdrOpc h) .illegalCommand (popCommand (s.cmd.drop (cmdLen h)) s))
    ∨ ∃ i : Instr, i.opcode.byte = hdrOpc h ∧ step s = exec i (popCommand (s.cmd.drop (cmdLen h)) s) := by
  obtain ⟨tail, hcmd, hlen⟩ := hs
  rw [hcmd] at hlen ⊢
  obtain ⟨why, hd⟩ | ⟨i, hd⟩ := decode_of_complete hlen
  · exact .inl (step_of_illegal (by rw [hcmd, hd]))
  · obtain ⟨hopc, -, -⟩ := checkHeader_ok (checkHeader_of_decode hd)
    exact .inr ⟨i, hopc.symm, step_of_command (by rw [hcmd, hd])⟩

/-- Without a complete command the engine waits (R86). -/
theorem step_of_no_command {s : State} (hs : ¬ ∃ h, CommandStands s h) : step s = .fault .awaitingCommand := by
  apply step_of_incomplete
  cases hcmd : s.cmd with
  | nil => rfl
  | cons h tail =>
    rw [decode_incomplete, ← List.length_cons (a := h), ← hcmd]
    exact not_le.mp fun hlen => hs ⟨h, tail, hcmd, hlen⟩

/-- A complete command always gives a next state: no command stops the engine (R309). -/
theorem exists_next_of_commandStands {s : State} {h : Word} (hs : CommandStands s h) : ∃ t, step s = .next t := by
  obtain hstep | ⟨i, -, hstep⟩ := step_of_commandStands hs
  · exact ⟨_, hstep⟩
  · obtain ⟨t, hexec, -⟩ := exec_answers i (popCommand (s.cmd.drop (cmdLen h)) s)
    exact ⟨t, hstep.trans hexec⟩

theorem exists_commandStands_of_step {s t : State} (hstep : step s = .next t) : ∃ h, CommandStands s h := by
  by_contra hs
  rw [step_of_no_command hs] at hstep
  cases hstep

/-- Settles O7: `step` cuts the command's words off `CMD` and calls `exec`. -/
theorem stepRunsTheDecodedCommand : Obligations.StepRunsTheDecodedCommand :=
  fun _ _ _ hd => step_of_command hd

/-- Settles O8: the decoder waits for nothing but missing words, and every meaning is total. -/
theorem stepsExactlyWhenACommandIsComplete : Obligations.StepsExactlyWhenACommandIsComplete := by
  intro s
  have hnext : (∃ h, CommandStands s h) → ∃ t, step s = .next t := fun ⟨_, hs⟩ => exists_next_of_commandStands hs
  have hstands : (∃ t, step s = .next t) → ∃ h, CommandStands s h := fun ⟨_, hstep⟩ => exists_commandStands_of_step hstep
  exact ⟨⟨hstands, hnext⟩, fun hno => step_of_no_command (mt hnext hno)⟩

/-! ## One response for one command -/

/-- A response header under the OPC byte that the command's header carries, in plain arithmetic (R120). -/
theorem rspHeader_hdrOpc (h : Word) (err : Byte) : rspHeader (hdrOpc h) err = errorWord (opcNum h) err.toNat := by
  rw [rspHeader_eq_errorWord, hdrOpc_toNat, opcNum]

/-- Settles O9: an illegal command is answered by error entry, and every other one in the shape of `exec_answers`. -/
theorem everyStepAnswersItsCommandOnce : Obligations.EveryStepAnswersItsCommandOnce := by
  intro s t hstep
  obtain ⟨h, hs⟩ := exists_commandStands_of_step hstep
  have ⟨tail, hcmd, hlen⟩ := hs
  obtain hill | ⟨i, hopc, hrun⟩ := step_of_commandStands hs
  · cases hill.symm.trans hstep
    refine ⟨h, tail, ErrCode.illegalCommand.code, [], hcmd, hlen, rfl, ?_, (ErrCode.code_range _).2,
      fun _ => ⟨rfl, rfl, rfl⟩⟩
    rw [raiseError_rsp, popCommand_rsp, rspHeader_hdrOpc]
  · obtain ⟨t', hexec, err, payload, hcmd', hrsp, hmax, herr, -, -⟩ :=
      exec_answers i (popCommand (s.cmd.drop (cmdLen h)) s)
    cases hexec.symm.trans (hrun.symm.trans hstep)
    rw [hopc, popCommand_rsp, rspHeader_hdrOpc] at hrsp
    refine ⟨h, tail, err, payload, hcmd, hlen, hcmd', hrsp, hmax, fun hne => herr ?_⟩
    rintro rfl
    exact hne rfl

/-! ## The host's taking of responses -/

/-- The step does not read `RSP`: whatever stands there, it appends the same words and leaves the rest alike (R83). -/
theorem step_withRsp {s t : State} (hstep : step s = .next t) :
    ∃ answer, t.rsp = s.rsp ++ answer ∧ ∀ rsp, step { s with rsp := rsp } = .next { t with rsp := rsp ++ answer } := by
  cases hd : decode s.cmd with
  | incomplete =>
    rw [step_of_incomplete hd] at hstep
    cases hstep
  | illegal opc why rest =>
    rw [step_of_illegal hd] at hstep
    cases hstep
    exact ⟨_, rfl, fun rsp => step_of_illegal (s := { s with rsp := rsp }) hd⟩
  | command i rest =>
    rw [step_of_command hd] at hstep
    obtain ⟨p, c, answer, hexec⟩ := exec_withStreams i s
    cases hstep.symm.trans (hexec rest s.rsp)
    exact ⟨answer, rfl, fun rsp => (step_of_command (s := { s with rsp := rsp }) hd).trans (hexec rest rsp)⟩

/-- Settles O17: the words taken stand in front of the ones that the step appends. -/
theorem takingResponsesDoesNotDisturbTheEngine : Obligations.TakingResponsesDoesNotDisturbTheEngine := by
  intro n s t hn hstep
  obtain ⟨answer, hrsp, hany⟩ := step_withRsp hstep
  constructor
  · have hdrop : t.rsp.drop n = s.rsp.drop n ++ answer := by rw [hrsp, List.drop_append_of_le_length hn]
    simp only [hostTake, hany, hdrop]
  · rw [hostTake_words, hostTake_words, hrsp, List.take_append_of_le_length hn]

/-! ## The block function -/

/-- The low half of a counter, in plain arithmetic (R12, R75). -/
theorem lo32_eq (c : Dword) : lo32 c = BitVec.ofNat 32 (c.toNat % 2 ^ 32) := by
  apply BitVec.eq_of_toNat_eq
  simp only [lo32, BitVec.extractLsb'_toNat, Nat.shiftRight_zero, BitVec.toNat_ofNat, Nat.mod_mod]

/-- The high half of a counter, in plain arithmetic (R12, R75). -/
theorem hi32_eq (c : Dword) : hi32 c = BitVec.ofNat 32 (c.toNat / 2 ^ 32) := by
  apply BitVec.eq_of_toNat_eq
  simp only [hi32, BitVec.extractLsb'_toNat, Nat.shiftRight_eq_div_pow, BitVec.toNat_ofNat]

/-- Settles O59: the rounds start from the key with the counter's halves added, and `block` writes the counter only. -/
theorem blockIsTheKeyedCounterAfterTheRounds : Obligations.BlockIsTheKeyedCounterAfterTheRounds := by
  constructor
  · intro key kmix n c
    rw [blockFn, blockLoad, lo32_eq, hi32_eq]
  · intro u
    refine ⟨block_fst u, ?_, rfl, rfl, rfl⟩
    rw [block_snd, cAfter_ctr, BitVec.toNat_add, BitVec.toNat_ofNat]

end Sys2Proof.Machine
end

section
/-! PROOFS. The decoder and the encoder (R100 to R105, R113): the obligations `DecodeOfEncodeIsTheCommand`,
`DecodedWordsAreTheOneEncoding` and `WorkedEncodingsDecode`. Both directions of the round trip rest on two facts: a word
stream decodes to a command exactly when it is cut under a legal header of that command (`decode_eq_command_iff`), and each
kind of operand is read from the words that it is written as, and written as the words that it was read from
(`OperandCodec`). -/

namespace Sys2Proof

/-! ## The cut of a command -/

/-- A stream decodes to a command exactly when it is a legal header of the command's opcode, as many operand words as that
header counts, from which the command is read, and the rest (R105). -/
theorem decode_eq_command_iff {ws rest : List Word} {i : Instr} :
    decode ws = .command i rest ↔
      ∃ h ops, ws = h :: (ops ++ rest) ∧ checkHeader h = .ok i.opcode ∧ ops.length = legalLen i.opcode h - 1
        ∧ readOperands i.opcode h ops = .ok i := by
  constructor
  · intro hd
    cases ws with
    | nil => cases hd
    | cons h tail =>
      have hc := checkHeader_of_decode hd
      have hlen : ¬ tail.length < legalLen i.opcode h - 1 := by
        intro hlt
        have hwait := (decode_incomplete h tail).mpr (by simp only [cmdLen, hc]; omega)
        rw [hd] at hwait
        cases hwait
      have hops : (tail.take (legalLen i.opcode h - 1)).length = legalLen i.opcode h - 1 := by
        rw [List.length_take]
        omega
      have hcut := decode_of_legal (tail.drop (legalLen i.opcode h - 1)) hc hops
      rw [List.take_append_drop, hd] at hcut
      cases hr : readOperands i.opcode h (tail.take (legalLen i.opcode h - 1)) with
      | error why =>
        rw [hr] at hcut
        cases hcut
      | ok j =>
        rw [hr] at hcut
        cases hcut
        exact ⟨h, _, by rw [List.take_append_drop], hc, hops, hr⟩
  · rintro ⟨h, ops, rfl, hc, hl, hr⟩
    rw [decode_of_legal rest hc hl, hr]

/-! ## Operands of a fixed number of words -/

/-- Reading an operand at an operand word's index and writing it as `k` words undo each other (R77, R102). -/
structure OperandCodec {α : Type} (read : List Word → Nat → α) (words : α → List Word) (k : Nat) : Prop where
  length_words : ∀ a, (words a).length = k
  read_words : ∀ {ops i a rest}, ops.drop i = words a ++ rest → read ops i = a
  words_read : ∀ {ops i}, i + k ≤ ops.length → ops.drop i = words (read ops i) ++ ops.drop (i + k)

namespace OperandCodec

variable {α : Type} {read : List Word → Nat → α} {words : α → List Word} {k : Nat} {ops rest : List Word} {i : Nat}

/-- The words behind a written operand. -/
theorem drop_words (hc : OperandCodec read words k) {a : α} (h : ops.drop i = words a ++ rest) :
    ops.drop (i + k) = rest := by
  rw [← List.drop_drop, h, List.drop_left' (hc.length_words a)]

/-- An operand that a default flag can leave out is read back from the words it was written as. -/
theorem read_optWords (hc : OperandCodec read words k) {r : Option α} (h : ops.drop i = optWords words r ++ rest) :
    (if r.isNone then none else some (read ops i)) = r := by
  cases r with
  | none => rfl
  | some a => exact congrArg some (hc.read_words h)

/-- Behind an operand that a default flag can leave out stands the next one. -/
theorem drop_optWords (hc : OperandCodec read words k) {r : Option α} (h : ops.drop i = optWords words r ++ rest) :
    ops.drop (if r.isNone then i else i + k) = rest := by
  cases r with
  | none => exact h
  | some a => exact hc.drop_words h

/-- The operand that a default flag selects is written as the words that it was read from. -/
theorem optWords_read (hc : OperandCodec read words k) {flag : Bool} (h : (if flag then i else i + k) ≤ ops.length) :
    ops.drop i = optWords words (if flag then none else some (read ops i)) ++ ops.drop (if flag then i else i + k) := by
  cases flag with
  | true => rfl
  | false => exact hc.words_read h

end OperandCodec

theorem wordAt_of_drop {ops rest : List Word} {i : Nat} {w : Word} (h : ops.drop i = w :: rest) : wordAt ops i = w := by
  have hw : ops[i]? = some w := by rw [← List.head?_drop, h, List.head?_cons]
  rw [wordAt, List.getD_eq_getElem?_getD, hw, Option.getD_some]

theorem wordCodec : OperandCodec wordAt (fun w => [w]) 1 where
  length_words _ := rfl
  read_words := wordAt_of_drop
  words_read h := drop_eq_wordAt_cons _ _ h

/-- Behind one word of a list stands the list's tail. -/
theorem drop_succ_of_drop {ops rest : List Word} {i : Nat} {w : Word} (h : ops.drop i = w :: rest) :
    ops.drop (i + 1) = rest := wordCodec.drop_words h

theorem dwordCodec : OperandCodec dwordAt dwordWords 2 where
  length_words := dwordWords_length
  read_words {ops i d rest} h := by
    have h1 := drop_succ_of_drop h
    rw [dwordAt, wordAt_of_drop h, wordAt_of_drop h1, dword_join]
  words_read h := drop_eq_dwordWords _ _ h

theorem qwordCodec : OperandCodec qwordAt qwordWords 4 where
  length_words := qwordWords_length
  read_words {ops i q rest} h := by
    have h1 := drop_succ_of_drop h
    have h2 := drop_succ_of_drop h1
    have h3 := drop_succ_of_drop h2
    rw [qwordAt, wordAt_of_drop h, wordAt_of_drop h1, wordAt_of_drop h2, wordAt_of_drop h3, qword_join]
  words_read h := drop_eq_qwordWords _ _ h

/-- The three zetas from operand word `i` on (R101). -/
def zetasFrom (ops : List Word) (i : Nat) : Zetas := ⟨dwordAt ops i, dwordAt ops (i + 2), dwordAt ops (i + 4)⟩

theorem zetasCodec : OperandCodec zetasFrom zetasWords 6 where
  length_words := zetasWords_length
  read_words {ops i z rest} h := by
    rw [zetasWords, List.append_assoc, List.append_assoc] at h
    have h1 := dwordCodec.drop_words h
    have h2 := dwordCodec.drop_words h1
    rw [zetasFrom, dwordCodec.read_words h, dwordCodec.read_words h1, dwordCodec.read_words h2]
  words_read {ops i} h := by
    rw [zetasWords, zetasFrom, drop_eq_dwordWords ops i (by omega), drop_eq_dwordWords ops (i + 2) (by omega),
      drop_eq_dwordWords ops (i + 4) (by omega), List.append_assoc, List.append_assoc]

/-! ## The tag operand and the INIT formats -/

/-- The words of the tag operand, as the header counts them (R102, R105). -/
def tagWordsOf (h : Word) : Nat := if hdrDD h then 0 else tagWordCount (hdrDlen h)

/-- The operand words of PINIT before its zetas (R101). -/
def zetasAt (h : Word) : Nat := if hdrDR h then 4 else 5

/-- The operand words of CINIT before its rounds (R101). -/
def roundsAt (h : Word) : Nat := if hdrDS h then 0 else 4

/-- The operand words of an INIT command before its tag (R101). -/
def tagAt (o : Opcode) (h : Word) : Nat :=
  if o = .pinit then if hdrDZ h then zetasAt h else zetasAt h + 6
  else if hdrDR h then roundsAt h else roundsAt h + 1

theorem readPinit_eq (h : Word) (ops : List Word) :
    readPinit h ops = (readTag h (ops.drop (tagAt .pinit h))).map (.pinit (qwordAt ops 0)
      (if hdrDR h then none else some (wordAt ops 4)) (if hdrDZ h then none else some (zetasFrom ops (zetasAt h)))) := by
  simp only [readPinit, tagAt, zetasAt, zetasFrom, if_true]
  cases readTag h _ <;> rfl

theorem readCinit_eq (h : Word) (ops : List Word) :
    readCinit h ops = (readTag h (ops.drop (tagAt .cinit h))).map (.cinit
      (if hdrDS h then none else some (qwordAt ops 0)) (if hdrDR h then none else some (wordAt ops (roundsAt h)))) := by
  simp only [readCinit, tagAt, roundsAt, reduceCtorEq, if_false]
  cases readTag h _ <;> rfl

/-- The tag words end an INIT command. -/
theorem legalLen_init {o : Opcode} (hf : o.format = .I) (h : Word) :
    legalLen o h = 1 + tagAt o h + tagWordsOf h := by
  obtain rfl | rfl : o = .pinit ∨ o = .cinit := by cases o <;> simp_all [Opcode.format]
  · simp only [legalLen, tagAt, zetasAt, tagWordsOf, Opcode.format, if_true]
    split_ifs <;> omega
  · simp only [legalLen, tagAt, roundsAt, tagWordsOf, Opcode.format, reduceCtorEq, if_false]
    split_ifs <;> omega

/-- A tag operand that is read fits DLEN, is written as the words it was read from, and its use of the default and its
length are the header's. -/
theorem optWords_readTag {h : Word} {ws : List Word} {tag : Option (List Byte)} (hlen : ws.length = tagWordsOf h)
    (hdd : hdrDD h = true → hdrDlen h = 0) (hr : readTag h ws = .ok tag) :
    tagFits tag = true ∧ tag.isNone = hdrDD h ∧ tagLen tag = hdrDlen h ∧ optWords packTag tag = ws := by
  unfold readTag at hr
  unfold tagWordsOf at hlen
  cases hd : hdrDD h with
  | true =>
    rw [hd, if_pos rfl] at hr hlen
    cases hr
    exact ⟨rfl, rfl, (hdd hd).symm, (List.eq_nil_of_length_eq_zero hlen).symm⟩
  | false =>
    simp only [hd, Bool.false_eq_true, if_false] at hr hlen
    split_ifs at hr with hz
    cases hr
    have hbytes : ((ws.flatMap wordBytes).take (hdrDlen h)).length = hdrDlen h := by
      rw [List.length_take, flatMap_wordBytes_length, hlen, tagWordCount]
      omega
    exact ⟨decide_eq_true (hbytes.trans_le (hdrDlen_le h)), rfl, hbytes, packTag_of_words ws _ hlen hz⟩

/-! ## From the encoding to the command -/

theorem readPinit_of_words {h : Word} {ops : List Word} {seed : Qword} {rounds : Option Word} {zetas : Option Zetas}
    {tag : Option (List Byte)} (hdd : hdrDD h = tag.isNone) (hdlen : hdrDlen h = tagLen tag)
    (hdr : hdrDR h = rounds.isNone) (hdz : hdrDZ h = zetas.isNone)
    (hops : ops = qwordWords seed ++ (optWords (fun w => [w]) rounds ++ (optWords zetasWords zetas ++ optWords packTag tag))) :
    readPinit h ops = .ok (.pinit seed rounds zetas tag) := by
  have hseed : ops.drop 0 = _ := hops
  have hrounds := qwordCodec.drop_words hseed
  have hzetas := wordCodec.drop_optWords hrounds
  rw [← hdr, show (if hdrDR h then 0 + 4 else 0 + 4 + 1) = zetasAt h from rfl] at hzetas
  have htag := zetasCodec.drop_optWords hzetas
  rw [← hdz, show (if hdrDZ h then zetasAt h else zetasAt h + 6) = tagAt .pinit h from rfl] at htag
  rw [readPinit_eq, htag, readTag_packTag h tag hdd hdlen, hdr, hdz, qwordCodec.read_words hseed,
    wordCodec.read_optWords hrounds, zetasCodec.read_optWords hzetas]
  rfl

theorem readCinit_of_words {h : Word} {ops : List Word} {seed : Option Qword} {rounds : Option Word}
    {tag : Option (List Byte)} (hdd : hdrDD h = tag.isNone) (hdlen : hdrDlen h = tagLen tag)
    (hdr : hdrDR h = rounds.isNone) (hds : hdrDS h = seed.isNone)
    (hops : ops = optWords qwordWords seed ++ (optWords (fun w => [w]) rounds ++ optWords packTag tag)) :
    readCinit h ops = .ok (.cinit seed rounds tag) := by
  have hseed : ops.drop 0 = _ := hops
  have hrounds := qwordCodec.drop_optWords hseed
  rw [← hds, show (if hdrDS h then 0 else 0 + 4) = roundsAt h from rfl] at hrounds
  have htag := wordCodec.drop_optWords hrounds
  rw [← hdr, show (if hdrDR h then roundsAt h else roundsAt h + 1) = tagAt .cinit h from rfl] at htag
  rw [readCinit_eq, htag, readTag_packTag h tag hdd hdlen, hds, hdr, qwordCodec.read_optWords hseed,
    wordCodec.read_optWords hrounds]
  rfl

/-- A tag that fits has its length in the header. -/
theorem hdrDlen_mkHeader_tagLen {o : Opcode} {dd dr dz ds : Bool} {tag : Option (List Byte)} (hw : tagFits tag = true) :
    hdrDlen (mkHeader o dd dr dz ds (tagLen tag)) = tagLen tag := by
  rw [hdrDlen_mkHeader, Nat.mod_eq_of_lt (tagLen_lt hw)]

/-- The operands of a well-formed command are read back from its own words. -/
theorem readOperands_encode {i : Instr} (hw : i.wellFormed = true) {h : Word} {ops : List Word}
    (he : encode i = h :: ops) : readOperands i.opcode h ops = .ok i := by
  cases i with
  | pinit seed rounds zetas tag =>
    cases he
    exact readPinit_of_words (hdrDD_mkHeader ..) (hdrDlen_mkHeader_tagLen hw) (hdrDR_mkHeader ..) (hdrDZ_mkHeader ..) rfl
  | cinit seed rounds tag =>
    cases he
    exact readCinit_of_words (hdrDD_mkHeader ..) (hdrDlen_mkHeader_tagLen hw) (hdrDR_mkHeader ..) (hdrDS_mkHeader ..) rfl
  | prange lo hi =>
    cases he
    have hlo := dwordCodec.read_words (ops := dwordWords lo ++ dwordWords hi) (i := 0) rfl
    have hhi := dwordCodec.read_words (ops := dwordWords lo ++ dwordWords hi) (i := 2) (rest := []) rfl
    simp only [Instr.opcode, readOperands, hlo, hhi]
  | crandi low high n =>
    cases he
    have hlow := dwordCodec.read_words (ops := dwordWords low ++ dwordWords high ++ dwordWords n) (i := 0) rfl
    have hhigh := dwordCodec.read_words (ops := dwordWords low ++ dwordWords high ++ dwordWords n) (i := 2) rfl
    have hn := dwordCodec.read_words (ops := dwordWords low ++ dwordWords high ++ dwordWords n) (i := 4) (rest := []) rfl
    simp only [Instr.opcode, readOperands, hlow, hhigh, hn]
  | pbatch n | cwords n | cunif n | crandn n =>
    cases he
    have hn := dwordCodec.read_words (ops := dwordWords n) (i := 0) (rest := []) rfl
    simp only [Instr.opcode, readOperands, hn]
  | pnext32 | pnextf | pdrop | cdrop =>
    cases he
    rfl

/-! ## From the command to the encoding -/

theorem words_of_readPinit {h : Word} {ops : List Word} {seed : Qword} {rounds : Option Word} {zetas : Option Zetas}
    {tag : Option (List Byte)} (hdd : hdrDD h = true → hdrDlen h = 0) (hlen : ops.length = tagAt .pinit h + tagWordsOf h)
    (hr : readPinit h ops = .ok (.pinit seed rounds zetas tag)) :
    tagFits tag = true
    ∧ (tag.isNone = hdrDD h ∧ rounds.isNone = hdrDR h ∧ zetas.isNone = hdrDZ h ∧ tagLen tag = hdrDlen h)
    ∧ qwordWords seed ++ (optWords (fun w => [w]) rounds ++ (optWords zetasWords zetas ++ optWords packTag tag)) = ops := by
  rw [readPinit_eq] at hr
  cases ht : readTag h (ops.drop (tagAt .pinit h)) with
  | error why =>
    rw [ht] at hr
    cases hr
  | ok t =>
    rw [ht] at hr
    cases hr
    obtain ⟨hfits, hnone, htlen, hwords⟩ := optWords_readTag (by rw [List.length_drop]; omega) hdd ht
    have hle : 4 ≤ zetasAt h ∧ zetasAt h ≤ tagAt .pinit h := by
      simp only [tagAt, zetasAt]
      split_ifs <;> omega
    refine ⟨hfits, ⟨hnone, by cases hdrDR h <;> rfl, by cases hdrDZ h <;> rfl, htlen⟩, ?_⟩
    have hzetas : ops.drop (zetasAt h) = _ ++ ops.drop (tagAt .pinit h) :=
      zetasCodec.optWords_read (flag := hdrDZ h) (show tagAt .pinit h ≤ _ by omega)
    have hrounds : ops.drop 4 = _ ++ ops.drop (zetasAt h) :=
      wordCodec.optWords_read (flag := hdrDR h) (show zetasAt h ≤ _ by omega)
    have hseed : ops.drop 0 = _ ++ ops.drop 4 := qwordCodec.words_read (by omega)
    rw [hwords, ← hzetas, ← hrounds, ← hseed, List.drop_zero]

theorem words_of_readCinit {h : Word} {ops : List Word} {seed : Option Qword} {rounds : Option Word}
    {tag : Option (List Byte)} (hdd : hdrDD h = true → hdrDlen h = 0) (hlen : ops.length = tagAt .cinit h + tagWordsOf h)
    (hr : readCinit h ops = .ok (.cinit seed rounds tag)) :
    tagFits tag = true
    ∧ (tag.isNone = hdrDD h ∧ rounds.isNone = hdrDR h ∧ seed.isNone = hdrDS h ∧ tagLen tag = hdrDlen h)
    ∧ optWords qwordWords seed ++ (optWords (fun w => [w]) rounds ++ optWords packTag tag) = ops := by
  rw [readCinit_eq] at hr
  cases ht : readTag h (ops.drop (tagAt .cinit h)) with
  | error why =>
    rw [ht] at hr
    cases hr
  | ok t =>
    rw [ht] at hr
    cases hr
    obtain ⟨hfits, hnone, htlen, hwords⟩ := optWords_readTag (by rw [List.length_drop]; omega) hdd ht
    have hle : roundsAt h ≤ tagAt .cinit h := by
      simp only [tagAt, roundsAt, reduceCtorEq, if_false]
      split_ifs <;> omega
    refine ⟨hfits, ⟨hnone, by cases hdrDR h <;> rfl, by cases hdrDS h <;> rfl, htlen⟩, ?_⟩
    have hrounds : ops.drop (roundsAt h) = _ ++ ops.drop (tagAt .cinit h) :=
      wordCodec.optWords_read (flag := hdrDR h) (show tagAt .cinit h ≤ _ by omega)
    have hseed : ops.drop 0 = _ ++ ops.drop (roundsAt h) :=
      qwordCodec.optWords_read (flag := hdrDS h) (show roundsAt h ≤ _ by omega)
    rw [hwords, ← hrounds, ← hseed, List.drop_zero]

/-- The last two operand words are those of the 64-bit value that stands there. -/
theorem drop_eq_last_dwordWords {ops : List Word} {i : Nat} (hlen : ops.length = i + 2) :
    ops.drop i = dwordWords (dwordAt ops i) := by
  rw [dwordCodec.words_read hlen.ge, List.drop_eq_nil_of_le hlen.le, List.append_nil]

/-- A command that is read under a legal header, from as many words as the header counts, is well-formed and is encoded as
that header and those words. -/
theorem encode_of_readOperands {i : Instr} {h : Word} {ops : List Word} (hc : checkHeader h = .ok i.opcode)
    (hlen : ops.length = legalLen i.opcode h - 1) (hr : readOperands i.opcode h ops = .ok i) :
    i.wellFormed = true ∧ encode i = h :: ops := by
  cases i with
  | pinit seed rounds zetas tag =>
    obtain ⟨hmk, hds, -, hdd⟩ := header_eq_mk hc rfl
    have hlen' : ops.length = tagAt .pinit h + tagWordsOf h := by
      rw [hlen, Instr.opcode, legalLen_init rfl]
      omega
    obtain ⟨hfits, ⟨htag, hrounds, hzetas, hdlen⟩, hops⟩ := words_of_readPinit hdd hlen' hr
    refine ⟨hfits, ?_⟩
    rw [encode, hops, htag, hrounds, hzetas, hdlen, ← hds rfl]
    exact congrArg (· :: ops) hmk.symm
  | cinit seed rounds tag =>
    obtain ⟨hmk, -, hdz, hdd⟩ := header_eq_mk hc rfl
    have hlen' : ops.length = tagAt .cinit h + tagWordsOf h := by
      rw [hlen, Instr.opcode, legalLen_init rfl]
      omega
    obtain ⟨hfits, ⟨htag, hrounds, hseed, hdlen⟩, hops⟩ := words_of_readCinit hdd hlen' hr
    refine ⟨hfits, ?_⟩
    rw [encode, hops, htag, hrounds, hseed, hdlen, ← hdz rfl]
    exact congrArg (· :: ops) hmk.symm
  | prange lo hi =>
    cases header_eq_plain hc (by simp [Instr.opcode, Opcode.format])
    cases hr
    replace hlen : ops.length = 4 := hlen
    have hhi := drop_eq_last_dwordWords (i := 2) hlen
    have hlo := dwordCodec.words_read (ops := ops) (i := 0) (by omega)
    refine ⟨rfl, congrArg (_ :: ·) ?_⟩
    rw [← hhi, ← hlo, List.drop_zero]
  | crandi low high n =>
    cases header_eq_plain hc (by simp [Instr.opcode, Opcode.format])
    cases hr
    replace hlen : ops.length = 6 := hlen
    have hn := drop_eq_last_dwordWords (i := 4) hlen
    have hhigh := dwordCodec.words_read (ops := ops) (i := 2) (by omega)
    have hlow := dwordCodec.words_read (ops := ops) (i := 0) (by omega)
    refine ⟨rfl, congrArg (_ :: ·) ?_⟩
    rw [← hn, List.append_assoc, ← hhigh, ← hlow, List.drop_zero]
  | pbatch n | cwords n | cunif n | crandn n =>
    cases header_eq_plain hc (by simp [Instr.opcode, Opcode.format])
    cases hr
    exact ⟨rfl, congrArg (_ :: ·) (drop_eq_last_dwordWords (i := 0) hlen).symm⟩
  | pnext32 | pnextf | pdrop | cdrop =>
    cases header_eq_plain hc (by simp [Instr.opcode, Opcode.format])
    cases List.eq_nil_of_length_eq_zero hlen
    exact ⟨rfl, rfl⟩

/-! ## The round trip -/

/-- A well-formed command is encoded as one legal header of its own opcode and as many words as that header counts. -/
theorem encodeCut (i : Instr) : Laws.EncodeCut.Statement i := by
  cases i with
  | pinit seed rounds zetas tag => exact Laws.EncodeCut.pinit seed rounds zetas tag
  | pnext32 => exact Laws.EncodeCut.pnext32
  | pnextf => exact Laws.EncodeCut.pnextf
  | prange lo hi => exact Laws.EncodeCut.prange lo hi
  | pbatch n => exact Laws.EncodeCut.pbatch n
  | pdrop => exact Laws.EncodeCut.pdrop
  | cinit seed rounds tag => exact Laws.EncodeCut.cinit seed rounds tag
  | cwords n => exact Laws.EncodeCut.cwords n
  | cunif n => exact Laws.EncodeCut.cunif n
  | crandi low high n => exact Laws.EncodeCut.crandi low high n
  | crandn n => exact Laws.EncodeCut.crandn n
  | cdrop => exact Laws.EncodeCut.cdrop

/-- Settles O1: the encoding is cut as its header counts, and its operands are read back. -/
theorem decodeOfEncodeIsTheCommand : Obligations.DecodeOfEncodeIsTheCommand := by
  intro i rest hw
  obtain ⟨h, ops, he, hc, hlen⟩ := encodeCut i hw
  rw [he, List.cons_append]
  exact decode_eq_command_iff.mpr ⟨h, ops, rfl, hc, by omega, readOperands_encode hw he⟩

/-- Settles O2: the decoder reads a command from its own words only. -/
theorem decodedWordsAreTheOneEncoding : Obligations.DecodedWordsAreTheOneEncoding := by
  intro ws i rest hd
  obtain ⟨h, ops, rfl, hc, hlen, hr⟩ := decode_eq_command_iff.mp hd
  obtain ⟨hw, he⟩ := encode_of_readOperands hc hlen hr
  exact ⟨hw, by rw [he, List.cons_append]⟩

/-- Settles O3, by running the decoder on each. -/
theorem workedEncodingsDecode : Obligations.WorkedEncodingsDecode := by
  unfold Obligations.WorkedEncodingsDecode
  decide

end Sys2Proof
end

section
/-! PROOFS. Illegal encodings and the length of a command (R105, R106, R111, R112): the obligations
`IllegalHeaderIsAnsweredAlone`, `NonZeroTagPaddingIsIllegalAsAWhole` and `LengthIsAFunctionOfTheHeader`. The header check
of the decoder is tied once to R111's conditions on the header's bits (`not_illegalHeader_iff`), and the check of the tag's
padding to R112's condition on the last tag word (`exists_readTag_ok_iff`). -/

namespace Sys2Proof.Machine

/-! ## The header check -/

theorem hdrLow_eq_zero_iff (h : Word) : hdrLow h = 0#24 ↔ h.toNat % 2 ^ 24 = 0 := by
  rw [← BitVec.toNat_inj, hdrLow_toNat, BitVec.toNat_ofNat, Nat.zero_mod]

theorem hdrRsv_eq_zero_iff (h : Word) : hdrRsv h = 0#4 ↔ h.toNat / 2 ^ 16 % 2 ^ 4 = 0 := by
  rw [← BitVec.toNat_inj, hdrRsv_toNat, BitVec.toNat_ofNat, Nat.zero_mod]

theorem opcNum_eq_hdrOpc (h : Word) : opcNum h = (hdrOpc h).toNat := (hdrOpc_toNat h).symm

theorem opcNum_of_opcodeOf {h : Word} {o : Opcode} (ho : opcodeOf (hdrOpc h) = some o) : opcNum h = o.byte.toNat := by
  rw [opcNum_eq_hdrOpc, opcodeOf_some ho]

/-- The decoder's opcode map knows the 12 values of R104. -/
theorem opcodeOf_eq_none_iff (h : Word) : opcodeOf (hdrOpc h) = none ↔ opcNum h ∉ knownOpcs := by
  have hknown : knownOpcs = Opcode.all.map (fun o => o.byte.toNat) := rfl
  simp [opcodeOf, hknown, opcNum_eq_hdrOpc, BitVec.toNat_inj]

section
variable {h : Word} {o : Opcode}

theorem initOpc_iff (ho : opcNum h = o.byte.toNat) : initOpc h ↔ o.format = .I := by
  rw [initOpc, ho]
  cases o <;> decide

theorem opcNum_eq_pinit_iff (ho : opcNum h = o.byte.toNat) : opcNum h = 0x10 ↔ o = .pinit := by
  rw [ho]
  cases o <;> decide

theorem opcNum_eq_cinit_iff (ho : opcNum h = o.byte.toNat) : opcNum h = 0x20 ↔ o = .cinit := by
  rw [ho]
  cases o <;> decide

/-- The INIT check passes exactly when none of R111 (c) to (f) holds. -/
theorem initHeaderIllegal_eq_none_iff :
    initHeaderIllegal o h = none ↔
      h.toNat / 2 ^ 16 % 2 ^ 4 = 0 ∧ ¬ (o = .pinit ∧ h.toNat.testBit 20 = true)
      ∧ ¬ (o = .cinit ∧ h.toNat.testBit 21 = true) ∧ ¬ (h.toNat.testBit 23 = true ∧ h.toNat % 2 ^ 16 ≠ 0) := by
  rw [← hdrRsv_eq_zero_iff, ← hdrDS_eq, ← hdrDZ_eq, ← hdrDD_eq, ← hdrDlen_eq, initHeaderIllegal]
  split_ifs <;> simp_all

/-- Under a known OPC byte, the header is legal exactly when it meets none of R111's conditions. -/
theorem checkHeader_eq_ok_of_opcodeOf (ho : opcodeOf (hdrOpc h) = some o) :
    checkHeader h = .ok o ↔ ¬ illegalHeader h := by
  have hopc := opcNum_of_opcodeOf ho
  have hknown : opcNum h ∈ knownOpcs := by
    by_contra hn
    rw [(opcodeOf_eq_none_iff h).mpr hn] at ho
    cases ho
  simp only [illegalHeader, initOpc_iff hopc, opcNum_eq_pinit_iff hopc, opcNum_eq_cinit_iff hopc, hknown,
    not_true_eq_false, false_or, checkHeader, ho]
  by_cases hf : o.format = .I
  · have hi := initHeaderIllegal_eq_none_iff (h := h) (o := o)
    rw [if_pos hf]
    cases hw : initHeaderIllegal o h <;> simp_all
  · have hp : o ≠ .pinit := fun h => hf (by rw [h]; rfl)
    have hc : o ≠ .cinit := fun h => hf (by rw [h]; rfl)
    have hlow := hdrLow_eq_zero_iff h
    rw [if_neg hf]
    split_ifs <;> simp_all

end

/-- A header is legal exactly when it meets none of R111's conditions. -/
theorem not_illegalHeader_iff {h : Word} : ¬ illegalHeader h ↔ ∃ o, checkHeader h = .ok o := by
  cases ho : opcodeOf (hdrOpc h) with
  | none => simp [illegalHeader, (opcodeOf_eq_none_iff h).mp ho, checkHeader, ho]
  | some o =>
    rw [← checkHeader_eq_ok_of_opcodeOf ho]
    refine ⟨fun hc => ⟨o, hc⟩, fun ⟨o', hc⟩ => ?_⟩
    have hbyte := (checkHeader_ok hc).1
    rw [hbyte, opcodeOf_byte] at ho
    cases ho
    exact hc

/-- An illegal header is what the header check refuses. -/
theorem exists_checkHeader_error {h : Word} (hi : illegalHeader h) : ∃ why, checkHeader h = .error why := by
  cases hc : checkHeader h with
  | error why => exact ⟨why, rfl⟩
  | ok o => exact absurd hi (not_illegalHeader_iff.mpr ⟨o, hc⟩)

theorem opcNum_of_checkHeader {h : Word} {o : Opcode} (hc : checkHeader h = .ok o) : opcNum h = o.byte.toNat := by
  rw [opcNum_eq_hdrOpc, (checkHeader_ok hc).1]

/-- The step where the decoder says illegal: the answer is IllegalCommand under the header's own OPC byte. -/
theorem step_of_illegal_errorWord {s : State} {h : Word} {why : Illegal} {rest : List Word}
    (hd : decode s.cmd = .illegal (hdrOpc h) why rest) :
    step s = .next { s with cmd := rest, rsp := s.rsp ++ [errorWord (opcNum h) 5] } := by
  rw [step_of_illegal hd, raiseError_eq, rspHeader_hdrOpc]
  rfl

/-- Settles O4: the header check refuses exactly the headers of R111, and the step answers what it refuses. -/
theorem illegalHeaderIsAnsweredAlone : Obligations.IllegalHeaderIsAnsweredAlone := by
  intro s h tail hcmd
  constructor
  · intro hi
    obtain ⟨why, hc⟩ := exists_checkHeader_error hi
    exact step_of_illegal_errorWord (by rw [hcmd, decode_of_illegal tail hc])
  · intro hl
    obtain ⟨o, hc⟩ := not_illegalHeader_iff.mp hl
    exact ⟨o, hc, (opcNum_of_checkHeader hc).symm⟩

/-! ## The length -/

theorem cmdLen_of_ok {h : Word} {o : Opcode} (hc : checkHeader h = .ok o) : cmdLen h = legalLen o h := by
  simp only [cmdLen, hc]

/-- The tag words in plain arithmetic. -/
theorem tagWordsOf_eq (h : Word) :
    tagWordsOf h = if h.toNat.testBit 23 then 0 else (h.toNat % 2 ^ 16 + 3) / 4 := by
  rw [tagWordsOf, tagWordCount, hdrDD_eq, hdrDlen_eq]

/-- A tag takes at most 16384 words (R106). -/
theorem tagWordsOf_le (h : Word) : tagWordsOf h ≤ 16384 := by
  rw [tagWordsOf_eq]
  split_ifs <;> omega

theorem legalLen_pinit (h : Word) :
    legalLen .pinit h = 1 + 4 + (if hdrDR h then 0 else 1) + (if hdrDZ h then 0 else 6) + tagWordsOf h := rfl

theorem legalLen_cinit (h : Word) :
    legalLen .cinit h = 1 + (if hdrDS h then 0 else 4) + (if hdrDR h then 0 else 1) + tagWordsOf h := rfl

/-- The range of R106 for PINIT. -/
theorem legalLen_pinit_range (h : Word) : 5 ≤ legalLen .pinit h ∧ legalLen .pinit h ≤ 16396 := by
  have htag := tagWordsOf_le h
  rw [legalLen_pinit]
  split_ifs <;> omega

/-- The range of R106 for CINIT. -/
theorem legalLen_cinit_range (h : Word) : 1 ≤ legalLen .cinit h ∧ legalLen .cinit h ≤ 16390 := by
  have htag := tagWordsOf_le h
  rw [legalLen_cinit]
  split_ifs <;> omega

/-- Settles O6: the decoder's length rule on the header's bits, opcode by opcode. -/
theorem lengthIsAFunctionOfTheHeader : Obligations.LengthIsAFunctionOfTheHeader := by
  intro h
  constructor
  · intro hi
    obtain ⟨why, hc⟩ := exists_checkHeader_error hi
    simp only [cmdLen, hc]
  · intro hl
    obtain ⟨o, hc⟩ := not_illegalHeader_iff.mp hl
    rw [opcNum_of_checkHeader hc, cmdLen_of_ok hc]
    simp only [← tagWordsOf_eq]
    cases o with
    | pinit =>
      refine ⟨?_, ?_, ?_, ?_, fun _ => ⟨legalLen_pinit h, legalLen_pinit_range h⟩, ?_⟩ <;> simp [Opcode.byte]
    | cinit =>
      refine ⟨?_, ?_, ?_, ?_, ?_, fun _ => ⟨legalLen_cinit h, legalLen_cinit_range h⟩⟩ <;> simp [Opcode.byte]
    | pnext32 | pnextf | prange | pbatch | pdrop | cwords | cunif | crandi | crandn | cdrop =>
      simp [legalLen, Opcode.format, Opcode.byte]

/-! ## The padding of the tag -/

/-- The bytes of a word from the `r`-th on are zero exactly when its low-order bits there are (R78). -/
theorem wordBytes_drop_all_zero_iff (w : Word) {r : Nat} (hr : r < 4) :
    ((wordBytes w).drop r).all (fun b => b == 0#8) = true ↔ w.toNat % 2 ^ (8 * (4 - r)) = 0 := by
  have hlt := w.isLt
  obtain rfl | rfl | rfl | rfl : r = 0 ∨ r = 1 ∨ r = 2 ∨ r = 3 := by omega
  all_goals
    simp only [wordBytes, List.drop_zero, List.drop_succ_cons, List.all_cons, List.all_nil, Bool.and_true,
      Bool.and_eq_true, beq_iff_eq, ← BitVec.toNat_inj, BitVec.extractLsb'_toNat, Nat.shiftRight_eq_div_pow,
      BitVec.toNat_ofNat]
    omega

theorem flatMap_wordBytes_drop (ws : List Word) (q r : Nat) :
    (ws.flatMap wordBytes).drop (4 * q + r) = ((ws.drop q).flatMap wordBytes).drop r := by
  induction q generalizing ws with
  | zero => rw [Nat.mul_zero, Nat.zero_add, List.drop_zero]
  | succ q ih =>
    cases ws with
    | nil => simp
    | cons w ws =>
      rw [show 4 * (q + 1) + r = 4 + (4 * q + r) by omega, ← List.drop_drop, List.flatMap_cons,
        List.drop_left' (show (wordBytes w).length = 4 from rfl), ih, List.drop_succ_cons]

/-- The pad bytes of tag words are zero exactly when there are none or the last word's low-order bits are zero (R112). -/
theorem padding_all_zero_iff {ws : List Word} {n : Nat} (hlen : ws.length = tagWordCount n) :
    ((ws.flatMap wordBytes).drop n).all (fun b => b == 0#8) = true ↔
      n % 4 = 0 ∨ (wordAt ws (n / 4)).toNat % 2 ^ (8 * (4 - n % 4)) = 0 := by
  rw [tagWordCount] at hlen
  have hdrop := flatMap_wordBytes_drop ws (n / 4) (n % 4)
  rw [Nat.div_add_mod] at hdrop
  rw [hdrop]
  by_cases hr : n % 4 = 0
  · have hnil : ws.drop (n / 4) = [] := List.drop_eq_nil_of_le (by omega)
    simp [hnil, hr]
  · have hlast : ws.drop (n / 4) = [wordAt ws (n / 4)] := by
      rw [drop_eq_wordAt_cons ws (n / 4) (by omega), List.drop_eq_nil_of_le (by omega)]
    have hw := wordBytes_drop_all_zero_iff (wordAt ws (n / 4)) (Nat.mod_lt n (by omega))
    simpa [hlast, hr] using hw

section
variable {h : Word} {o : Opcode}

/-- A tag operand is refused exactly for a bit that is not zero in its padding (R112). -/
theorem exists_readTag_ok_iff {ws : List Word} (hlen : ws.length = tagWordsOf h) :
    (∃ tag, readTag h ws = .ok tag) ↔
      ¬ (hdrDD h = false ∧ hdrDlen h % 4 ≠ 0
        ∧ (wordAt ws (hdrDlen h / 4)).toNat % 2 ^ (8 * (4 - hdrDlen h % 4)) ≠ 0) := by
  rw [tagWordsOf] at hlen
  rw [readTag]
  cases hd : hdrDD h with
  | true => simp
  | false =>
    simp only [hd, Bool.false_eq_true, if_false] at hlen
    have hz := padding_all_zero_iff hlen
    simp only [Bool.false_eq_true, if_false, true_and, ne_eq, ← not_or, not_not, ← hz]
    split_ifs with hp
    · exact iff_of_true ⟨_, rfl⟩ hp
    · exact iff_of_false (fun ⟨_, he⟩ => by cases he) hp

/-- The operands of an INIT command are refused exactly when its tag is. -/
theorem exists_readOperands_init_iff (hf : o.format = .I) (ops : List Word) :
    (∃ i, readOperands o h ops = .ok i) ↔ ∃ tag, readTag h (ops.drop (tagAt o h)) = .ok tag := by
  have hmap : ∃ build, readOperands o h ops = (readTag h (ops.drop (tagAt o h))).map build := by
    cases o with
    | pinit => exact ⟨_, readPinit_eq h ops⟩
    | cinit => exact ⟨_, readCinit_eq h ops⟩
    | _ => cases hf
  obtain ⟨build, hbuild⟩ := hmap
  rw [hbuild]
  cases readTag h (ops.drop (tagAt o h)) <;> simp [Except.map]

/-- Outside the INIT formats every operand word sequence is read. -/
theorem exists_readOperands_plain (hf : o.format ≠ .I) (ops : List Word) : ∃ i, readOperands o h ops = .ok i := by
  cases o with
  | pinit | cinit => exact absurd rfl hf
  | _ => exact ⟨_, rfl⟩

/-- A complete command under a legal header decodes exactly when its operands are read. -/
theorem decode_complete_iff {tail : List Word} (hc : checkHeader h = .ok o) (hlen : cmdLen h ≤ (h :: tail).length) :
    (∃ i, decode (h :: tail) = .command i ((h :: tail).drop (cmdLen h))) ↔
      ∃ i, readOperands o h (tail.take (cmdLen h - 1)) = .ok i := by
  have hops : (tail.take (cmdLen h - 1)).length = legalLen o h - 1 := by
    rw [List.length_cons] at hlen
    rw [List.length_take, ← cmdLen_of_ok hc]
    omega
  have hd := decode_of_legal (tail.drop (cmdLen h - 1)) hc hops
  rw [List.take_append_drop] at hd
  rw [hd, drop_cmdLen_cons]
  cases readOperands o h (tail.take (cmdLen h - 1)) <;> simp

/-- The pad bits of a complete INIT command stand in its last word. -/
theorem tag_last_word {tail : List Word} (hc : checkHeader h = .ok o) (hf : o.format = .I) (hdd : hdrDD h = false)
    (hpad : hdrDlen h % 4 ≠ 0) :
    wordAt ((tail.take (cmdLen h - 1)).drop (tagAt o h)) (hdrDlen h / 4) = (h :: tail).getD (cmdLen h - 1) 0#32 := by
  have hlast : cmdLen h - 1 = tagAt o h + hdrDlen h / 4 + 1 := by
    simp only [cmdLen_of_ok hc, legalLen_init hf, tagWordsOf, hdd, tagWordCount, Bool.false_eq_true, if_false]
    omega
  rw [hlast, List.getD_cons_succ, wordAt, List.getD_eq_getElem?_getD, List.getElem?_drop,
    List.getElem?_take_of_lt (Nat.lt_succ_self _), List.getD_eq_getElem?_getD]

/-- A complete command under a legal header decodes exactly when R112 does not refuse it. -/
theorem decode_complete_iff_padding {tail : List Word} (hc : checkHeader h = .ok o)
    (hlen : cmdLen h ≤ (h :: tail).length) :
    (∃ i, decode (h :: tail) = .command i ((h :: tail).drop (cmdLen h))) ↔
      ¬ (initOpc h ∧ h.toNat.testBit 23 = false ∧ h.toNat % 4 ≠ 0
        ∧ ((h :: tail).getD (cmdLen h - 1) 0#32).toNat % 2 ^ (8 * (4 - h.toNat % 4)) ≠ 0) := by
  rw [decode_complete_iff hc hlen, initOpc_iff (opcNum_of_checkHeader hc)]
  by_cases hf : o.format = .I
  · have htag : ((tail.take (cmdLen h - 1)).drop (tagAt o h)).length = tagWordsOf h := by
      rw [List.length_cons, cmdLen_of_ok hc, legalLen_init hf] at hlen
      rw [List.length_drop, List.length_take, cmdLen_of_ok hc, legalLen_init hf]
      omega
    have hmod : hdrDlen h % 4 = h.toNat % 4 := by
      rw [hdrDlen_eq]
      omega
    rw [exists_readOperands_init_iff hf, exists_readTag_ok_iff htag, hmod, ← hdrDD_eq]
    refine not_congr ⟨fun ⟨hdd, hpad, hbits⟩ => ⟨hf, hdd, hpad, ?_⟩, fun ⟨_, hdd, hpad, hbits⟩ => ⟨hdd, hpad, ?_⟩⟩
    · rwa [← tag_last_word hc hf hdd (hmod ▸ hpad)]
    · rwa [tag_last_word hc hf hdd (hmod ▸ hpad)]
  · exact iff_of_true (exists_readOperands_plain hf _) fun ⟨hi, _⟩ => hf hi

end

/-- Settles O5: a command that R112 does not refuse decodes, and any other is answered as illegal and cut off whole. -/
theorem nonZeroTagPaddingIsIllegalAsAWhole : Obligations.NonZeroTagPaddingIsIllegalAsAWhole := by
  intro s h tail hcmd hl hlen
  obtain ⟨o, hc⟩ := not_illegalHeader_iff.mp hl
  rw [hcmd] at hlen ⊢
  have hiff := decode_complete_iff_padding hc hlen
  refine ⟨fun hbad => ?_, hiff.mpr⟩
  obtain ⟨why, hd⟩ | hcommand := decode_of_complete hlen
  · exact step_of_illegal_errorWord (by rw [hcmd, hd])
  · exact absurd hbad (hiff.mp hcommand)

end Sys2Proof.Machine
end

section
/-! PROOFS. Operands left out and operands from the host (R103, R126, R251): the obligations
`LeftOutOperandsTakeTheirDefaults` and `ShapesBecomeElementCounts`. -/

namespace Sys2Proof.Machine

/-! ## Operands left out -/

/-- Giving the default is leaving the operand out. -/
theorem orDefault_some_getD {α : Type} (dflt : α) (a : Option α) :
    orDefault dflt (some (a.getD dflt)) = orDefault dflt a := by
  cases a <;> rfl

/-- PINIT reads each optional operand through its default only, under every configuration. -/
theorem pinitWith_some_getD (cfg : Cfg) (seed : Qword) (rounds : Option Word) (zetas : Option Zetas)
    (tag : Option (List Byte)) (s : State) :
    pinitWith cfg seed (some (rounds.getD pRoundsDefault)) (some (zetas.getD zetasDefault))
      (some (tag.getD cfg.domainP.toList)) s = pinitWith cfg seed rounds zetas tag s := by
  simp only [pinitWith, orDefault_some_getD]

/-- CINIT reads each optional operand through its default only, under every configuration. -/
theorem cinitWith_some_getD (cfg : Cfg) (seed : Option Qword) (rounds : Option Word) (tag : Option (List Byte))
    (s : State) :
    cinitWith cfg (some (seed.getD cSeedDefault)) (some (rounds.getD cRoundsDefault))
      (some (tag.getD cfg.domainC.toList)) s = cinitWith cfg seed rounds tag s := by
  simp only [cinitWith, orDefault_some_getD]

/-- Settles O32: both INIT commands read an operand through its default only. -/
theorem leftOutOperandsTakeTheirDefaults : Obligations.LeftOutOperandsTakeTheirDefaults := by
  intro pseed cseed rounds zetas tag s
  exact ⟨congrArg _ (pinitWith_some_getD Config.CFG pseed rounds zetas tag s).symm,
    congrArg _ (cinitWith_some_getD Config.CFG cseed rounds tag s).symm⟩

/-! ## The front end -/

/-- An integer in the range of a 64-bit operand is carried by it (R12). -/
theorem exists_signedOperand {v : Int} (hlo : -(2 ^ 63) ≤ v) (hhi : v < 2 ^ 63) :
    ∃ d : Dword, d.toInt = v ∧ signedOperand 64 v = .ok d :=
  ⟨BitVec.ofInt 64 v, BitVec.toInt_ofInt_eq_self (by decide) hlo hhi, if_pos ⟨hlo, hhi⟩⟩

/-- A shape with a negative extent is refused (R126, R303). -/
theorem shapeCount_of_neg {shape : List Int} (hneg : ∃ e ∈ shape, e < 0) :
    shapeCount shape = .error .validationError := by
  simp [shapeCount, hneg]

/-- Any other shape is its product, where that fits (R126). -/
theorem exists_shapeCount {shape : List Int} (hnn : ∀ e ∈ shape, 0 ≤ e) (hfits : shape.prod < 2 ^ 63) :
    ∃ n : Dword, n.toInt = shape.prod ∧ shapeCount shape = .ok n := by
  have hprod : 0 ≤ shape.prod := List.prod_nonneg hnn
  obtain ⟨n, hn, hop⟩ := exists_signedOperand (by omega) hfits
  have hany : ¬ shape.any (fun e => decide (e < 0)) = true := by simpa using hnn
  exact ⟨n, hn, by rw [shapeCount, if_neg hany, hop]⟩

/-- Settles O56: all three calls look at the shape first, and then at the bounds. -/
theorem shapesBecomeElementCounts : Obligations.ShapesBecomeElementCounts := by
  intro shape
  constructor
  · intro hneg
    have hcount := shapeCount_of_neg hneg
    refine ⟨?_, ?_, fun low high => ?_⟩ <;> rw [expandCall, hcount] <;> rfl
  · intro hnn hfits
    obtain ⟨n, hn, hcount⟩ := exists_shapeCount hnn hfits
    refine ⟨n, hn, by rw [expandCall, hcount]; rfl, by rw [expandCall, hcount]; rfl, ?_⟩
    intro low high hlow hlow' hhigh hhigh'
    obtain ⟨a, ha, hopa⟩ := exists_signedOperand hlow hlow'
    obtain ⟨b, hb, hopb⟩ := exists_signedOperand hhigh hhigh'
    exact ⟨a, b, ha, hb, by rw [expandCall, hcount, hopa, hopb]; rfl⟩

end Sys2Proof.Machine
end

section
/-! PROOFS. The parts of the P-unit's seed expansion (40_seed_expansion_p.md): the numeral of the seed (R142), the hash (R143),
the xorshift words (R145) and the rotation schedule (R147 to R149); the obligations
`NumeralIsTheDecimalFormOfTheSeed`, `HashXorsThenMultipliesEachCharacter`, `XorshiftShiftsLeft13Right17Left5`,
`ZeroXorshiftSeedGivesTheBareIncrements`, `ScheduleIsMadeOfTheZetaList` and `ScheduleEntryIsTheFloorModulo31`. -/

namespace Sys2Proof.Machine

/-! ## The numeral of the seed (R142) -/

theorem digitByte_toNat {d : Nat} (h : d < 10) : (digitByte d).toNat = 0x30 + d := by
  rw [digitByte, BitVec.toNat_ofNat]
  omega

theorem decDigits_of_lt {fuel n : Nat} (h : n < 10) : decDigits (fuel + 1) n = [digitByte n] := if_pos h

theorem decDigits_of_ge {fuel n : Nat} (h : 10 ≤ n) :
    decDigits (fuel + 1) n = decDigits fuel (n / 10) ++ [digitByte (n % 10)] := if_neg (by omega)

theorem decDigits_ascii (fuel n : Nat) : ∀ b ∈ decDigits fuel n, 0x30 ≤ b.toNat ∧ b.toNat ≤ 0x39 := by
  have hdigit {d : Nat} (hd : d < 10) : 0x30 ≤ (digitByte d).toNat ∧ (digitByte d).toNat ≤ 0x39 := by
    rw [digitByte_toNat hd]
    omega
  induction fuel generalizing n with
  | zero => simp [decDigits]
  | succ fuel ih =>
    rcases lt_or_ge n 10 with hn | hn
    · simpa [decDigits_of_lt hn] using hdigit hn
    · intro b hb
      rw [decDigits_of_ge hn, List.mem_append, List.mem_singleton] at hb
      rcases hb with hb | rfl
      · exact ih _ b hb
      · exact hdigit (Nat.mod_lt n (by norm_num))

/-- With enough fuel the digits evaluate to the number. -/
theorem decDigits_value {fuel n : Nat} (h : n < fuel) :
    (decDigits fuel n).foldl (fun v b => v * 10 + (b.toNat - 0x30)) 0 = n := by
  induction fuel generalizing n with
  | zero => omega
  | succ fuel ih =>
    rcases lt_or_ge n 10 with hn | hn
    · simp [decDigits_of_lt hn, digitByte_toNat hn]
    · have hmod : n % 10 < 10 := Nat.mod_lt n (by norm_num)
      rw [decDigits_of_ge hn, List.foldl_append, ih (by omega)]
      simp only [List.foldl_cons, List.foldl_nil, digitByte_toNat hmod]
      omega

/-- With enough fuel the first digit of a positive number is its leading digit, which is not 0. -/
theorem decDigits_head {fuel n : Nat} (h : n < fuel) (hn0 : n ≠ 0) :
    ∃ d tail, decDigits fuel n = digitByte d :: tail ∧ d ≠ 0 ∧ d < 10 := by
  induction fuel generalizing n with
  | zero => omega
  | succ fuel ih =>
    rcases lt_or_ge n 10 with hn | hn
    · exact ⟨n, [], decDigits_of_lt hn, hn0, hn⟩
    · obtain ⟨d, tail, hd, hd0, hd10⟩ := ih (n := n / 10) (by omega) (by omega)
      exact ⟨d, tail ++ [digitByte (n % 10)], by rw [decDigits_of_ge hn, hd, List.cons_append], hd0, hd10⟩

theorem decNumeral_natCast (n : Nat) : decNumeral n = decDigits (n + 1) n := by
  rw [decNumeral, if_neg (by omega), Int.natAbs_natCast]

theorem decNumeral_of_neg {n : Int} (h : n < 0) : decNumeral n = 0x2D#8 :: decNumeral (-n) := by
  rw [decNumeral, decNumeral, if_pos h, if_neg (by omega), Int.natAbs_neg]

/-- Settles O24: the digits by induction on the fuel, which the numeral takes above the number. -/
theorem numeralIsTheDecimalFormOfTheSeed : Obligations.NumeralIsTheDecimalFormOfTheSeed := by
  refine ⟨fun n => ?_, fun n => decNumeral_of_neg⟩
  rw [decNumeral_natCast]
  refine ⟨decDigits_ascii _ n, decDigits_value n.lt_succ_self, fun hn => ?_, ?_⟩
  · obtain ⟨d, tail, hdigits, hd0, hd10⟩ := decDigits_head n.lt_succ_self hn
    rw [hdigits, List.head?_cons, Ne, Option.some.injEq]
    intro heq
    have := digitByte_toNat hd10
    rw [heq, BitVec.toNat_ofNat] at this
    omega
  · rintro rfl
    rfl

/-! ## The hash (R143) -/

/-- One character into one accumulator: the character's code point is below 2^32, so widening keeps it. -/
theorem toNat_xor_char_mul (h m : Word) (c : Byte) :
    ((h ^^^ c.setWidth 32) * m).toNat = (h.toNat ^^^ c.toNat) * m.toNat % 2 ^ 32 := by
  have hc : c.toNat % 2 ^ 32 = c.toNat := Nat.mod_eq_of_lt (by have := c.isLt; omega)
  rw [BitVec.toNat_mul, BitVec.toNat_xor, BitVec.toNat_setWidth, hc]

/-- Settles O57: the two accumulators differ in their constants only. -/
theorem hashXorsThenMultipliesEachCharacter : Obligations.HashXorsThenMultipliesEachCharacter := by
  refine ⟨fun h1 h2 c => ⟨toNat_xor_char_mul h1 h1Mul c, toNat_xor_char_mul h2 h2Mul c⟩, rfl, fun cs c => ?_,
    fun _ _ => rfl⟩
  rw [hashAcc, List.foldl_append]
  rfl

/-! ## The xorshift words (R145) -/

theorem toNat_xor_shiftLeft (x : Word) (n : Nat) :
    (x ^^^ (x <<< n)).toNat = x.toNat ^^^ (x.toNat * 2 ^ n % 2 ^ 32) := by
  rw [BitVec.toNat_xor, BitVec.toNat_shiftLeft, Nat.shiftLeft_eq]

theorem toNat_xor_shiftRight (x : Word) (n : Nat) : (x ^^^ (x >>> n)).toNat = x.toNat ^^^ (x.toNat / 2 ^ n) := by
  rw [BitVec.toNat_xor, BitVec.toNat_ushiftRight, Nat.shiftRight_eq_div_pow]

/-- Settles O58, one shift after the other. -/
theorem xorshiftShiftsLeft13Right17Left5 : Obligations.XorshiftShiftsLeft13Right17Left5 := by
  intro x
  let a := x ^^^ (x <<< 13)
  let b := a ^^^ (a >>> 17)
  exact ⟨a.toNat, b.toNat, toNat_xor_shiftLeft x 13, toNat_xor_shiftRight a 17, toNat_xor_shiftLeft b 5⟩

/-- The word 0 is never left: every shift of it is 0. -/
theorem xorshift_iterate_zero (n : Nat) : xorshift^[n] 0#32 = 0#32 := Function.iterate_fixed rfl n

/-- Settles O26: the xorshift word starts at 0 and stays there. -/
theorem zeroXorshiftSeedGivesTheBareIncrements : Obligations.ZeroXorshiftSeedGivesTheBareIncrements := by
  intro seed h1 h2 i hseed
  have hlow : seed.extractLsb' 0 32 = 0#32 := by
    apply BitVec.eq_of_toNat_eq
    rw [BitVec.extractLsb'_toNat, Nat.shiftRight_zero, hseed]
    rfl
  rw [rawWord, hlow, xorshift_iterate_zero, BitVec.zero_add]

/-- The xorshift word starts at the seed modulo 2^32, the seed read as an integer. -/
theorem extractLsb'_eq_ofInt_toInt (seed : Qword) : seed.extractLsb' 0 32 = BitVec.ofInt 32 seed.toInt := by
  rw [← BitVec.setWidth_eq_extractLsb' (by decide), ← BitVec.signExtend_eq_setWidth_of_le seed (by decide)]
  rfl

/-- A raw word, from the seed as an integer. -/
theorem rawWord_eq (seed : Qword) (h1 h2 : Word) (i : Nat) :
    rawWord seed h1 h2 i = xorshift^[i + 1] (BitVec.ofInt 32 seed.toInt) + h1 + h2 * BitVec.ofNat 32 i := by
  rw [rawWord, extractLsb'_eq_ofInt_toInt, BitVec.add_assoc]

/-! ## The rotation schedule (R147 to R149) -/

theorem f64OfNat_three : f64OfNat 3 = 0x4008000000000000#64 := by decide

theorem f64OfNat_977 : f64OfNat 977 = 0x408E880000000000#64 := by decide

/-- One `t_i`, its additive constant given as a pattern. -/
theorem schedArg_eq {i : Nat} {c : F64} (hc : f64OfNat (i * 7 + 13) = c) (z : F64) :
    schedArg z i = f64Add (f64Mul z 0x408E880000000000#64) c := by
  rw [schedArg, f64OfNat_977, hc]

/-- Settles O27: the constants of the rule are the patterns, entry by entry. -/
theorem scheduleIsMadeOfTheZetaList : Obligations.ScheduleIsMadeOfTheZetaList := by
  intro cfg z mean t a
  refine ⟨?_, rfl, List.all_eq_true⟩
  simp only [schedArgs, zetaList, f64OfNat_three, Oct.mk.injEq]
  exact ⟨schedArg_eq (by decide) _, schedArg_eq (by decide) _, schedArg_eq (by decide) _, schedArg_eq (by decide) _,
    schedArg_eq (by decide) _, schedArg_eq (by decide) _, schedArg_eq (by decide) _, schedArg_eq (by decide) _⟩

/-- `floor(|x|)` of the datum is the floor of the number it stands for. -/
theorem f64AbsFloor_eq_floor {t : F64} {x : ℚ} (h : f64Rat t = some x) : (f64AbsFloor t : Int) = ⌊|x|⌋ := by
  obtain ⟨neg, m, e, hread, -, rfl⟩ := f64Read_of_f64Rat h
  have habs : |signRat neg * (m * 2 ^ e)| = (m : ℚ) * 2 ^ e := by
    rw [abs_signRat_mul]
    exact abs_of_nonneg (by positivity)
  simp only [f64AbsFloor, hread]
  rw [habs]
  split_ifs with he
  · lift e to Nat using he
    rw [zpow_natCast, Int.toNat_natCast, ← Int.floor_natCast (R := ℚ)]
    push_cast
    rfl
  · obtain ⟨k, rfl⟩ : ∃ k : Nat, e = -k := ⟨e.natAbs, by omega⟩
    rw [neg_neg, Int.toNat_natCast, zpow_neg, zpow_natCast, ← div_eq_mul_inv]
    exact_mod_cast (Rat.floor_natCast_div_natCast m (2 ^ k)).symm

theorem schedEntry_toNat (t : F64) :
    (schedEntry t).toNat = if f64AbsFloor t % 31 = 0 then 1 else f64AbsFloor t % 31 := by
  simp only [schedEntry]
  split_ifs
  · rfl
  · rw [BitVec.toNat_ofNat]
    omega

/-- Settles O28: the entry is made of the floor of the number that the datum stands for. -/
theorem scheduleEntryIsTheFloorModulo31 : Obligations.ScheduleEntryIsTheFloorModulo31 := by
  intro t x hx
  rw [← f64AbsFloor_eq_floor hx, schedEntry_toNat]
  refine ⟨fun h => ?_, fun h => if_pos (by omega), rotLegal_schedEntry t⟩
  rw [if_neg (by omega)]
  omega

end Sys2Proof.Machine
end

section
/-! PROOFS. The commands PINIT and PDROP, and CDROP beside it (40_seed_expansion_p.md, R178): the obligations
`PinitRefusesZeroRoundsAndNonFiniteZetas`, `PinitInstallsTheExpandedUnit`, `PinitSucceedsUnderEveryConfiguration` and
`DropLeavesTheUnitUnconstructed`. What PINIT does when its checks pass, and when one fails, is said once under every
configuration. -/

namespace Sys2Proof.Machine

/-! ## Data that are not finite (R141) -/

/-- A datum that is not finite is a NaN or an infinity. -/
theorem f64Read_of_not_finite {x : F64} (h : f64Finite x = false) : f64Read x = .nan ∨ ∃ neg, f64Read x = .inf neg := by
  have hexp : f64Exp x = 2047 := by simpa [f64Finite] using h
  rw [f64Read, if_pos hexp]
  split_ifs
  · exact .inr ⟨_, rfl⟩
  · exact .inl rfl

theorem f64Read_of_finite {x : F64} (h : f64Finite x = true) : ∃ neg m e, f64Read x = .fin neg m e := by
  have hexp : f64Exp x ≠ 2047 := by simpa [f64Finite] using h
  rw [f64Read, if_neg hexp]
  split_ifs <;> exact ⟨_, _, _, rfl⟩

theorem f64Finite_f64NaN : f64Finite f64NaN = false := by decide

/-- A product with a finite datum other than zero is not finite when the other factor is not. -/
theorem f64Mul_not_finite {x y : F64} {neg : Bool} {m : Nat} {e : Int} (hx : f64Finite x = false)
    (hy : f64Read y = .fin neg m e) (hm : m ≠ 0) : f64Finite (f64Mul x y) = false := by
  rcases f64Read_of_not_finite hx with hread | ⟨inf, hread⟩
  · simp only [f64Mul, hread, f64Finite_f64NaN]
  · simp only [f64Mul, hread, hy, if_neg hm, f64Finite_f64Inf]

/-- A sum with a finite datum is not finite when the other term is not. -/
theorem f64Add_not_finite {x y : F64} (hx : f64Finite x = false) (hy : f64Finite y = true) :
    f64Finite (f64Add x y) = false := by
  obtain ⟨neg, m, e, hy⟩ := f64Read_of_finite hy
  rcases f64Read_of_not_finite hx with hread | ⟨inf, hread⟩
  · simp only [f64Add, hread, f64Finite_f64NaN]
  · simp only [f64Add, hread, hy, f64Finite_f64Inf]

/-- A zeta that is not finite stays so through the product with 977 and the sum. -/
theorem schedArg_not_finite {z : F64} {i : Nat} (hz : f64Finite z = false)
    (hi : f64Finite (f64OfNat (i * 7 + 13)) = true) : f64Finite (schedArg z i) = false := by
  have h977 : f64Read (f64OfNat 977) = .fin false (977 * 2 ^ 43) (-43) := by decide
  exact f64Add_not_finite (f64Mul_not_finite hz h977 (by decide)) hi

theorem schedFinite_eq_false_iff {cfg : Cfg} {z : Zetas} :
    schedFinite cfg z = false ↔ ∃ x ∈ octList (schedArgs cfg z), f64Finite x = false := by
  simp [schedFinite, List.all_eq_false]

/-- The three zetas stand in the zeta list themselves, so one that is not finite makes a `t_i` that is not. -/
theorem schedFinite_of_zeta_not_finite (cfg : Cfg) {z : Zetas}
    (h : f64Finite z.z0 = false ∨ f64Finite z.z1 = false ∨ f64Finite z.z2 = false) : schedFinite cfg z = false := by
  rw [schedFinite_eq_false_iff]
  rcases h with h | h | h
  · exact ⟨schedArg z.z0 0, by simp [octList, schedArgs, zetaList], schedArg_not_finite h (by decide)⟩
  · exact ⟨schedArg z.z1 1, by simp [octList, schedArgs, zetaList], schedArg_not_finite h (by decide)⟩
  · exact ⟨schedArg z.z2 2, by simp [octList, schedArgs, zetaList], schedArg_not_finite h (by decide)⟩

/-! ## PINIT (R140, R141) -/

section
variable {cfg : Cfg} {rounds : Option Word} {zetas : Option Zetas} {n : Word} {z : Zetas}

/-- A PINIT that a check refuses answers ValidationError and changes no unit. -/
theorem pinitWith_of_refused (hrounds : orDefault pRoundsDefault rounds = n) (hzetas : orDefault zetasDefault zetas = z)
    (h : n = 0#32 ∨ schedFinite cfg z = false) (seed : Qword) (tag : Option (List Byte)) (s : State) :
    pinitWith cfg seed rounds zetas tag s = { s with rsp := s.rsp ++ [0x10030000#32] } := by
  have hfail : fail .pinit .validationError s = { s with rsp := s.rsp ++ [0x10030000#32] } := rfl
  simp only [pinitWith, hrounds, hzetas]
  split_ifs with hn hz
  · exact hfail
  · exact hfail
  · exact absurd h (not_or.mpr ⟨hn, hz⟩)

/-- A PINIT that passes the checks installs the expanded unit. -/
theorem pinitWith_of_accepted (hrounds : orDefault pRoundsDefault rounds = n)
    (hzetas : orDefault zetasDefault zetas = z) (hn : n ≠ 0#32) (hz : schedFinite cfg z = true) (seed : Qword)
    (tag : Option (List Byte)) (s : State) :
    pinitWith cfg seed rounds zetas tag s =
      { s with
        pUnit := some (expandP cfg seed n z (orDefault cfg.domainP.toList tag))
        rsp := s.rsp ++ [0x10000000#32] } := by
  simp only [pinitWith, hrounds, hzetas]
  rw [if_neg hn, if_neg (by simp [hz])]
  rfl

end

/-- PINIT runs under the engine's configuration. -/
theorem exec_pinit_eq (seed : Qword) (rounds : Option Word) (zetas : Option Zetas) (tag : Option (List Byte)) (s : State) :
    exec (.pinit seed rounds zetas tag) s = .next (pinitWith Config.CFG seed rounds zetas tag s) := by
  rfl

/-- An expanded unit is legal under every configuration: a schedule entry always is. -/
theorem expandP_legal (cfg : Cfg) (seed : Qword) {n : Word} (hn : n ≠ 0#32) (z : Zetas) (tag : List Byte) :
    (expandP cfg seed n z tag).legal = true := by
  simp [PermState.legal, expandP, schedule, octList, one_le_rounds hn]

/-- Settles O31: a zero round count or a schedule that is not finite fails a check. -/
theorem pinitRefusesZeroRoundsAndNonFiniteZetas : Obligations.PinitRefusesZeroRoundsAndNonFiniteZetas := by
  intro seed rounds z tag s h
  rw [exec_pinit_eq, pinitWith_of_refused rfl rfl]
  rcases h with rfl | harg | hzeta
  · exact .inl rfl
  · exact .inr (schedFinite_eq_false_iff.mpr harg)
  · exact .inr (schedFinite_of_zeta_not_finite _ hzeta)

/-- Settles O30: a positive round count and a finite schedule pass the checks. -/
theorem pinitSucceedsUnderEveryConfiguration : Obligations.PinitSucceedsUnderEveryConfiguration := by
  intro cfg seed n z tag s hn hz
  exact ⟨pinitWith_of_accepted (rounds := some n) (zetas := some z) rfl rfl hn hz seed (some tag) s,
    expandP_legal cfg seed hn z tag, exec_pinit_eq seed (some n) (some z) (some tag) s⟩

/-- Settles O29: both outcomes of the checks, and the expanded unit with its raw words written out. -/
theorem pinitInstallsTheExpandedUnit : Obligations.PinitInstallsTheExpandedUnit := by
  intro seed rounds zetas tag s n z d acc h w k r hn
  have hrounds : orDefault pRoundsDefault rounds = n := by cases rounds <;> rfl
  have hzetas : orDefault zetasDefault zetas = z := by cases zetas <;> rfl
  have htag : orDefault Config.CFG.domainP.toList tag = d := by cases tag <;> rfl
  have hhash : hash2 Config.CFG (hashInput seed.toInt d) = h := rfl
  have hraw (i : Nat) : rawWord seed h.1 h.2 i = w i := rawWord_eq seed h.1 h.2 i
  rw [exec_pinit_eq]
  split_ifs with hfin
  · rw [pinitWith_of_accepted hrounds hzetas hn hfin, htag]
    simp only [expandP, hhash, initialWords, roundKeys, octOf, hraw]
    rfl
  · rw [pinitWith_of_refused hrounds hzetas (.inr (Bool.eq_false_of_not_eq_true hfin))]

/-! ## The DROP commands (R152, R178) -/

/-- Settles O33: neither command has a check, and each appends its header alone. -/
theorem dropLeavesTheUnitUnconstructed : Obligations.DropLeavesTheUnitUnconstructed :=
  fun _ => ⟨rfl, rfl⟩

end Sys2Proof.Machine
end

section
/-! PROOFS. Seed expansion of the C-unit (41_seed_expansion_c.md): the obligations `CinitInstallsTheDigestKey`,
`CinitRefusesSeedsOutsideSixtyFourBits`, `CinitRefusesZeroRounds` and `DigestMessageDeterminesTagAndSeed`. What CINIT does
in each of its three outcomes is said once under every configuration; the message and the key are read byte by byte. -/

namespace Sys2Proof.Machine

/-! ## The seed range (R171) -/

theorem seedFits64_eq_true_iff {v : Int} : seedFits64 v = true ↔ -(2 ^ 63) ≤ v ∧ v ≤ 2 ^ 63 - 1 :=
  decide_eq_true_iff

theorem seedFits64_eq_false_iff {v : Int} : seedFits64 v = false ↔ v < -(2 ^ 63) ∨ 2 ^ 63 - 1 < v := by
  rw [seedFits64, decide_eq_false_iff_not]
  omega

/-- A 128-bit operand is in the signed 64-bit range when its 65 high bits are copies of one bit. -/
theorem toInt_in_range_iff_high_bits_equal (q : Qword) :
    -(2 ^ 63) ≤ q.toInt ∧ q.toInt ≤ 2 ^ 63 - 1 ↔ q.toNat / 2 ^ 63 = 0 ∨ q.toNat / 2 ^ 63 = 2 ^ 65 - 1 := by
  have hlt := q.isLt
  rw [BitVec.toInt_eq_toNat_cond]
  split_ifs <;> omega

/-! ## The outcomes of CINIT (R170 to R172) -/

section
variable {cfg : Cfg} {seed : Option Qword} {rounds : Option Word} {v : Int} {n : Word}

/-- A seed out of range is refused before the round count is looked at (R308). -/
theorem cinitWith_of_seed_out_of_range (hseed : (orDefault cSeedDefault seed).toInt = v) (hv : seedFits64 v = false)
    (tag : Option (List Byte)) (s : State) :
    cinitWith cfg seed rounds tag s = { s with rsp := s.rsp ++ [0x20010000#32] } := by
  simp only [cinitWith, hseed]
  rw [if_pos hv]
  rfl

theorem cinitWith_of_zero_rounds (hseed : (orDefault cSeedDefault seed).toInt = v)
    (hrounds : orDefault cRoundsDefault rounds = 0#32) (hv : seedFits64 v = true) (tag : Option (List Byte)) (s : State) :
    cinitWith cfg seed rounds tag s = { s with rsp := s.rsp ++ [0x20030000#32] } := by
  simp only [cinitWith, hseed, hrounds]
  rw [if_neg (by simp [hv]), if_pos trivial]
  rfl

/-- A CINIT that passes both checks installs the expanded unit. -/
theorem cinitWith_of_accepted (hseed : (orDefault cSeedDefault seed).toInt = v)
    (hrounds : orDefault cRoundsDefault rounds = n) (hv : seedFits64 v = true) (hn : n ≠ 0#32)
    (tag : Option (List Byte)) (s : State) :
    cinitWith cfg seed rounds tag s =
      { s with
        cUnit := some (expandC cfg v n (orDefault cfg.domainC.toList tag))
        rsp := s.rsp ++ [0x20000000#32] } := by
  simp only [cinitWith, hseed, hrounds]
  rw [if_neg (by simp [hv]), if_neg hn]
  rfl

/-- A seed in range is never answered with EncodingError. -/
theorem cinitWith_rsp_ne_of_seed_in_range (hseed : (orDefault cSeedDefault seed).toInt = v) (hv : seedFits64 v = true)
    (tag : Option (List Byte)) (s : State) :
    (cinitWith cfg seed rounds tag s).rsp ≠ s.rsp ++ [0x20010000#32] := by
  by_cases hn : orDefault cRoundsDefault rounds = 0#32
  · rw [cinitWith_of_zero_rounds hseed hn hv]
    simp
  · rw [cinitWith_of_accepted hseed rfl hv hn]
    simp

end

/-- CINIT runs under the engine's configuration. -/
theorem exec_cinit_eq (seed : Option Qword) (rounds : Option Word) (tag : Option (List Byte)) (s : State) :
    exec (.cinit seed rounds tag) s = .next (cinitWith Config.CFG seed rounds tag s) := by
  rfl

/-- Settles O41: the seed passes its check and the round count does not. -/
theorem cinitRefusesZeroRounds : Obligations.CinitRefusesZeroRounds := by
  intro seed tag s hlo hhi
  have hv : seedFits64 seed.toInt = true := seedFits64_eq_true_iff.mpr ⟨hlo, hhi⟩
  rw [exec_cinit_eq, cinitWith_of_zero_rounds (seed := some seed) rfl rfl hv]

/-- Settles O40: the seed's check comes first, and the other two outcomes have other response words. -/
theorem cinitRefusesSeedsOutsideSixtyFourBits : Obligations.CinitRefusesSeedsOutsideSixtyFourBits := by
  intro seed rounds tag s
  rw [exec_cinit_eq]
  refine ⟨fun hout => ?_, fun hin heq => ?_, toInt_in_range_iff_high_bits_equal seed⟩
  · rw [cinitWith_of_seed_out_of_range (seed := some seed) rfl (seedFits64_eq_false_iff.mpr hout)]
  · exact cinitWith_rsp_ne_of_seed_in_range (seed := some seed) rfl (seedFits64_eq_true_iff.mpr hin) tag s
      (congrArg State.rsp (Host.Outcome.next.inj heq))

/-! ## The digest message (R73, R173) -/

@[simp] theorem be8_length (v : Dword) : (be8 v).length = 8 := rfl

/-- The bytes of a 64-bit pattern in plain arithmetic, most significant first. -/
theorem be8_eq (v : Dword) :
    be8 v = (List.range 8).map (fun j => BitVec.ofNat 8 (v.toNat / 2 ^ (56 - 8 * j) % 2 ^ 8)) := by
  have hbyte (start : Nat) : v.extractLsb' start 8 = BitVec.ofNat 8 (v.toNat / 2 ^ start % 2 ^ 8) := by
    apply BitVec.eq_of_toNat_eq
    rw [BitVec.extractLsb'_toNat, Nat.shiftRight_eq_div_pow, BitVec.toNat_ofNat, Nat.mod_mod]
  simp only [be8, hbyte]
  rfl

/-- The eight bytes are the whole pattern. -/
theorem be8_injective : Function.Injective be8 := by
  intro v w h
  have hv := v.isLt
  have hw := w.isLt
  simp only [be8, List.cons.injEq, and_true, ← BitVec.toNat_inj, BitVec.extractLsb'_toNat,
    Nat.shiftRight_eq_div_pow] at h
  apply BitVec.eq_of_toNat_eq
  omega

/-- A seed in range is the signed reading of its two's complement (R12). -/
theorem toInt_tc64 {v : Int} (hlo : -(2 ^ 63) ≤ v) (hhi : v ≤ 2 ^ 63 - 1) : (tc64 v).toInt = v :=
  BitVec.toInt_ofInt_eq_self (by decide) hlo (Int.lt_of_le_sub_one hhi)

/-- Settles O42: the seed is the last eight bytes, and the tag all bytes before them. -/
theorem digestMessageDeterminesTagAndSeed : Obligations.DigestMessageDeterminesTagAndSeed := by
  intro a b t t' halo hahi hblo hbhi hmsg
  obtain ⟨htag, hbytes⟩ := List.append_inj' hmsg (by rw [be8_length, be8_length])
  have hseed : tc64 a = tc64 b := be8_injective hbytes
  refine ⟨?_, htag⟩
  rw [← toInt_tc64 halo hahi, hseed, toInt_tc64 hblo hbhi]

/-! ## The key (R174) -/

theorem leWord_toNat (b0 b1 b2 b3 : Byte) :
    (leWord b0 b1 b2 b3).toNat = b0.toNat + 2 ^ 8 * b1.toNat + 2 ^ 16 * b2.toNat + 2 ^ 24 * b3.toNat := by
  simp only [leWord, toNat_append_add]
  omega

/-- Word `j` of the key is made of the digest bytes `4j` to `4j + 3`. -/
theorem octAt_leWords (d : Vector Byte 64) {j : Nat} (hj : j < 8) :
    octAt (leWords d) j = leWord (d.toList.getD (4 * j) 0) (d.toList.getD (4 * j + 1) 0)
      (d.toList.getD (4 * j + 2) 0) (d.toList.getD (4 * j + 3) 0) := by
  have hget {i : Nat} (hi : i < 64) : d.toList.getD i 0 = d[i] := by
    rw [List.getD_eq_getElem _ _ (by simpa using hi), Vector.getElem_toList]
  rw [hget (by omega), hget (by omega), hget (by omega), hget (by omega)]
  interval_cases j <;> rfl

/-- Settles O39: the expanded unit, with the message and the key's bytes written out. -/
theorem cinitInstallsTheDigestKey : Obligations.CinitInstallsTheDigestKey := by
  intro seed rounds tag s v n d seedBytes dig hn hlo hhi
  have hseed : (orDefault cSeedDefault seed).toInt = v := by cases seed <;> rfl
  have hrounds : orDefault cRoundsDefault rounds = n := by cases rounds <;> rfl
  have htag : orDefault Config.CFG.domainC.toList tag = d := by cases tag <;> rfl
  have hmsg : digestMsg v d = d ++ seedBytes := by rw [digestMsg, be8_eq, tc64, BitVec.toNat_ofInt]; rfl
  refine ⟨leWords dig, ?_, fun j hj => ?_⟩
  · have hv : seedFits64 v = true := seedFits64_eq_true_iff.mpr ⟨hlo, hhi⟩
    rw [exec_cinit_eq, cinitWith_of_accepted hseed hrounds hv hn, htag, expandC, hmsg]
  · rw [octAt_leWords dig hj, leWord_toNat]

end Sys2Proof.Machine
end

section
/-! PROOFS. The P-unit's permutation step and PNEXT32 (42_permutation_step.md): the obligations
`ZeroStateIsFixedUnderZeroKeys`, `DerivedAmountIsTheSumModulo31NeverZero`, `QuadsMixTheirOwnFourWords`,
`CrossAndFoldCoupleTheEightWords` and `Pnext32AdvancesOnceAndReturnsTheWord`. -/

namespace Sys2Proof.Machine

/-! ## The zero state (R197) -/

/-- No rotation brings a bit into the zero word. -/
@[simp] theorem rotl32_zero_word (n : Nat) : rotl32 0#32 n = 0#32 := by
  simp only [rotl32]
  split_ifs <;> simp

/-- The zero state, which is also the zero key of every step. -/
def zeroWords : Oct Word := ⟨0#32, 0#32, 0#32, 0#32, 0#32, 0#32, 0#32, 0#32⟩

/-- A quad of zero words stays zero under zero keys, whatever its amounts. -/
theorem quad_zero (r0 r1 r2 r3 : BitVec 5) :
    quad ⟨0#32, 0#32, 0#32, 0#32⟩ 0#32 0#32 0#32 0#32 r0 r1 r2 r3 = ⟨0#32, 0#32, 0#32, 0#32⟩ := by
  simp [quad]

theorem quadA_zero (r : Oct (BitVec 5)) : quadA zeroWords r zeroWords = zeroWords := by
  simp only [quadA, zeroWords, quad_zero]

theorem quadB_zero (r : Oct (BitVec 5)) : quadB zeroWords r zeroWords = zeroWords := by
  simp only [quadB, zeroWords, quad_zero]

theorem cross_zero : cross zeroWords = zeroWords := by
  simp [cross, zeroWords]

theorem fold_zero : fold zeroWords = zeroWords := by
  simp [fold, zeroWords]

/-- Each of the four phases of a step keeps the zero state when the keys are zero. -/
theorem permStep_zero (r : Oct (BitVec 5)) : permStep zeroWords r zeroWords = zeroWords := by
  rw [permStep, quadA_zero, quadB_zero, cross_zero, fold_zero]

/-- Settles O22: a fixed point of one step is one of its iterates. -/
theorem zeroStateIsFixedUnderZeroKeys : Obligations.ZeroStateIsFixedUnderZeroKeys :=
  fun r n => Function.iterate_fixed (permStep_zero r) n

/-! ## The derived rotation amount (R191) -/

section
variable {a b : BitVec 5}

theorem derived_of_sum_ne_zero (h : (a.toNat + b.toNat) % 31 ≠ 0) : derived a b = (a.toNat + b.toNat) % 31 := if_neg h

theorem derived_of_sum_eq_zero (h : (a.toNat + b.toNat) % 31 = 0) : derived a b = 1 := if_pos h

end

/-- A derived amount is never 0 and never a whole turn. -/
theorem derived_range (a b : BitVec 5) : 1 ≤ derived a b ∧ derived a b ≤ 30 := by
  by_cases h : (a.toNat + b.toNat) % 31 = 0
  · rw [derived_of_sum_eq_zero h]
    decide
  · rw [derived_of_sum_ne_zero h]
    omega

/-- Settles O19: the two cases of the definition, and the range they share. -/
theorem derivedAmountIsTheSumModulo31NeverZero : Obligations.DerivedAmountIsTheSumModulo31NeverZero :=
  fun a b => ⟨derived_of_sum_ne_zero, derived_of_sum_eq_zero, derived_range a b⟩

/-! ## The quads (R192) -/

/-- The assignments of a quad in order, the words after its first four named. -/
theorem quad_assignments (s : Quad) (k0 k1 k2 k3 : Word) (r0 r1 r2 r3 : BitVec 5) :
    ∃ a0 a1 a2 a3 : Word,
      a0 = s.w0 + s.w1 + k0 ∧ a1 = rotl32 (s.w1 ^^^ a0) r0.toNat
      ∧ a2 = s.w2 + s.w3 + k1 ∧ a3 = rotl32 (s.w3 ^^^ a2) r1.toNat
      ∧ (quad s k0 k1 k2 k3 r0 r1 r2 r3).w0 = a0 + rotl32 (a0 ^^^ a2) r2.toNat + k2
      ∧ (quad s k0 k1 k2 k3 r0 r1 r2 r3).w2 = a2 + rotl32 (a1 ^^^ a3) r3.toNat + k3
      ∧ (quad s k0 k1 k2 k3 r0 r1 r2 r3).w1 = a1 ^^^ rotl32 (quad s k0 k1 k2 k3 r0 r1 r2 r3).w0 (derived r0 r2)
      ∧ (quad s k0 k1 k2 k3 r0 r1 r2 r3).w3 = a3 ^^^ rotl32 (quad s k0 k1 k2 k3 r0 r1 r2 r3).w2 (derived r1 r3) := by
  refine ⟨_, _, _, _, rfl, rfl, rfl, rfl, ?_⟩
  simp only [quad, BitVec.add_assoc, and_self]

/-- Each quad reads and writes its own four words only, so their order does not matter. -/
theorem quadB_quadA_comm (k : Oct Word) (r : Oct (BitVec 5)) (s : Oct Word) :
    quadB k r (quadA k r s) = quadA k r (quadB k r s) := rfl

/-- Settles O20: both quads are `quad` on four of the eight words, and leave the other four. -/
theorem quadsMixTheirOwnFourWords : Obligations.QuadsMixTheirOwnFourWords := by
  intro k s r
  refine ⟨?quadA, ⟨rfl, rfl, rfl, rfl⟩, ?quadB, ⟨rfl, rfl, rfl, rfl⟩, quadB_quadA_comm k r s⟩
  case quadA => exact quad_assignments ⟨s.x0, s.x1, s.x2, s.x3⟩ k.x0 k.x1 k.x2 k.x3 r.x0 r.x1 r.x2 r.x3
  case quadB => exact quad_assignments ⟨s.x4, s.x5, s.x6, s.x7⟩ k.x4 k.x5 k.x6 k.x7 r.x4 r.x5 r.x6 r.x7

/-! ## Cross coupling, global fold and the step (R193, R194, R196) -/

/-- Settles O21: the model's assignments are the rules', in their order, so each equation unfolds to the same words. -/
theorem crossAndFoldCoupleTheEightWords : Obligations.CrossAndFoldCoupleTheEightWords :=
  fun _ _ _ => ⟨rfl, rfl, rfl⟩

/-! ## PNEXT32 (R198, R199) -/

/-- PNEXT32 on a ready unit: one advance, answered by the word extracted after it. -/
theorem exec_pnext32_of_ready {s : State} {u : PermState} (hu : s.pUnit = some u) :
    exec .pnext32 s = .next (respond .pnext32 [extractWord (advanceState u).s] (setP (advanceState u) s)) := by
  simp only [exec, execPnext32, pnext32, hu, advance_fst, advance_snd]

/-- Settles O34: the answer's header is opcode 0x11 without an error, and the unit's other fields stay. -/
theorem pnext32AdvancesOnceAndReturnsTheWord : Obligations.Pnext32AdvancesOnceAndReturnsTheWord := by
  intro s u hu
  rw [exec_pnext32_of_ready hu, respond_eq]
  rfl

end Sys2Proof.Machine
end

section
/-! PROOFS. The C-unit's block function, requests and CWORDS (43_block_function.md): the obligations
`RoundIsThePairsCrossAndFold`, `FiveBlockWordsIgnoreTheCounter`, `MultiplesOfEightConcatenate`, `CounterWrapsAfterAllBlocks`
and `CwordsReturnsTheFirstWordsOfFreshBlocks`. -/

namespace Sys2Proof.Machine

/-! ## One round (R224) -/

/-- Settles O43: the model's assignments are the rule's, in its order; the named words are those after the pairs and those
after the cross coupling. -/
theorem roundIsThePairsCrossAndFold : Obligations.RoundIsThePairsCrossAndFold :=
  fun m b => ⟨(blockPairs m b).x1, (blockPairs m b).x3, (blockPairs m b).x5, (blockPairs m b).x7,
    (blockCross (blockPairs m b)).x1, (blockCross (blockPairs m b)).x3,
    rfl, rfl, rfl, rfl, rfl, rfl, rfl, rfl, rfl, rfl, rfl, rfl, rfl, rfl⟩

/-! ## The words that the counter does not reach (R229) -/

/-- Two blocks in progress differ at most in words 0, 1 and 5. -/
def SameCounterFreeWords (a b : Oct Word) : Prop :=
  a.x2 = b.x2 ∧ a.x3 = b.x3 ∧ a.x4 = b.x4 ∧ a.x6 = b.x6 ∧ a.x7 = b.x7

/-- The counter is added to words 0 and 1 only (R222). -/
theorem blockLoad_sameCounterFreeWords (key : Oct Word) (c d : Dword) :
    SameCounterFreeWords (blockLoad key c) (blockLoad key d) :=
  ⟨rfl, rfl, rfl, rfl, rfl⟩

namespace SameCounterFreeWords

variable {a b : Oct Word}

/-- Each pair stays inside the words compared, but for (0, 1), whose words are not, and (4, 5), which writes word 5 last. -/
theorem after_pairs (h : SameCounterFreeWords a b) (kmix : Oct Word) :
    SameCounterFreeWords (blockPairs kmix a) (blockPairs kmix b) := by
  obtain ⟨h2, h3, h4, h6, h7⟩ := h
  simp only [SameCounterFreeWords, blockPairs, h2, h3, h4, h6, h7, and_self]

/-- Words 3 and 7 are coupled with each other; words 1 and 5 likewise. -/
theorem after_cross (h : SameCounterFreeWords a b) : SameCounterFreeWords (blockCross a) (blockCross b) := by
  obtain ⟨h2, h3, h4, h6, h7⟩ := h
  simp only [SameCounterFreeWords, blockCross, h2, h3, h4, h6, h7, and_self]

/-- Words 6 and 7 are folded into words 2 and 3; words 4 and 5 go into words 0 and 1. -/
theorem after_fold (h : SameCounterFreeWords a b) : SameCounterFreeWords (blockFold a) (blockFold b) := by
  obtain ⟨h2, h3, h4, h6, h7⟩ := h
  simp only [SameCounterFreeWords, blockFold, h2, h3, h4, h6, h7, and_self]

theorem after_round (h : SameCounterFreeWords a b) (kmix : Oct Word) :
    SameCounterFreeWords (blockRound kmix a) (blockRound kmix b) :=
  (h.after_pairs kmix).after_cross.after_fold

theorem after_rounds (h : SameCounterFreeWords a b) (kmix : Oct Word) (n : Nat) :
    SameCounterFreeWords ((blockRound kmix)^[n] a) ((blockRound kmix)^[n] b) := by
  induction n generalizing a b with
  | zero => exact h
  | succ n ih => exact ih (h.after_round kmix)

end SameCounterFreeWords

/-- Settles O44: the loaded blocks agree on the five words, and every round keeps that. -/
theorem fiveBlockWordsIgnoreTheCounter : Obligations.FiveBlockWordsIgnoreTheCounter :=
  fun key kmix n c d => (blockLoad_sameCounterFreeWords key c d).after_rounds kmix n.toNat

/-! ## Requests one after the other (R230, R350) -/

theorem blockCount_mul_add (q n : Nat) : blockCount (8 * q + n) = q + blockCount n := by
  simp only [blockCount]
  omega

@[simp] theorem blockCount_mul (q : Nat) : blockCount (8 * q) = q := by
  simp only [blockCount]
  omega

/-- Settles O46: `8q` words are `q` whole blocks, so the next request starts at word `8q`. -/
theorem multiplesOfEightConcatenate : Obligations.MultiplesOfEightConcatenate := by
  intro q n u
  have hnext : cWord (cAfter u q) = fun j => cWord u (8 * q + j) := funext (cWord_cAfter u q)
  simp only [request_eq, blockCount_mul, blockCount_mul_add, hnext, wordsOf_add, cAfter_add, and_self]

/-! ## The counter's period (R226, R351) -/

/-- The counter is a 64-bit word, so 2^64 blocks bring it back. -/
theorem cAfter_two_pow (u : CtrState) : cAfter u (2 ^ 64) = u := by
  have hzero : BitVec.ofNat 64 (2 ^ 64) = 0#64 := by decide
  rw [cAfter, hzero, BitVec.add_zero]

/-- Settles O47: the unit is back after 2^64 blocks, and word `j + 8 * 2^64` is word `j` from there. -/
theorem counterWrapsAfterAllBlocks : Obligations.CounterWrapsAfterAllBlocks := by
  intro u
  constructor
  · rw [blocks_eq, cAfter_two_pow]
  · intro j
    rw [Nat.add_comm, ← cWord_cAfter, cAfter_two_pow]

/-! ## CWORDS (R231) -/

/-- A count that is not negative is its word read as a natural number. -/
theorem countOf_of_nonneg {n : Dword} (hn : 0 ≤ n.toInt) : countOf n = n.toNat := by
  have hmsb : n.msb = false := by rw [BitVec.msb_eq_toInt, decide_eq_false (not_lt.mpr hn)]
  rw [countOf, BitVec.toNat_toInt_of_msb n hmsb]

/-- CWORDS on a ready unit, with a count that is not negative: one request, answered by its words. -/
theorem exec_cwords_of_ready {s : State} {u : CtrState} {n : Dword} (hu : s.cUnit = some u) (hn : 0 ≤ n.toInt) :
    exec (.cwords n) s = .next (respond .cwords (request n.toNat u).1 (setC (request n.toNat u).2 s)) := by
  simp only [exec, execCwords, cwords, hu, if_neg (not_lt.mpr hn), countOf_of_nonneg hn]

/-- Settles O45: the answer's header is opcode 0x21 without an error, and the unit's other fields stay. -/
theorem cwordsReturnsTheFirstWordsOfFreshBlocks : Obligations.CwordsReturnsTheFirstWordsOfFreshBlocks := by
  intro s u n hu hn
  rw [exec_cwords_of_ready hu hn, request_eq, respond_eq]
  rfl

end Sys2Proof.Machine
end

section
/-! PROOFS. The output layer of the P-unit (44_output_distributions.md): the obligations `PnextfReturnsTheExactQuotient`,
`PrangeReturnsAValueInTheInclusiveRange`, `PbatchReturnsTheNextWordsInOrder` and `PbatchIsRepeatedPnext32`. -/

namespace Sys2Proof.Machine

/-! ## PNEXTF (R252, R253) -/

/-- The magnitude pattern of R252's bit-level form: binade `990 + p`, and the word moved up until its bit `p` is the hidden
bit. -/
def quotientMag (w : Word) : Nat := (990 + Nat.log2 w.toNat) * 2 ^ 52 + w.toNat * 2 ^ (52 - Nat.log2 w.toNat)

theorem word_toNat_ne_zero {w : Word} (hw : w ≠ 0#32) : w.toNat ≠ 0 := fun h => hw (BitVec.eq_of_toNat_eq h)

/-- The top bit of a word. -/
theorem log2_word_le (w : Word) : Nat.log2 w.toNat ≤ 31 := by
  rcases eq_or_ne w.toNat 0 with h0 | h0
  · simp [h0]
  · exact Nat.le_of_lt_succ ((Nat.log2_lt h0).mpr w.isLt)

/-- A word that is not 0, normalised to 53 bits without loss. -/
theorem normalised_range {w : Word} (hw : w ≠ 0#32) :
    2 ^ 52 ≤ w.toNat * 2 ^ (52 - Nat.log2 w.toNat) ∧ w.toNat * 2 ^ (52 - Nat.log2 w.toNat) < 2 ^ 53 := by
  have hp := log2_word_le w
  have hlow : 2 ^ 52 = 2 ^ Nat.log2 w.toNat * 2 ^ (52 - Nat.log2 w.toNat) := by rw [← pow_add]; congr 1; omega
  have hhigh : 2 ^ 53 = 2 ^ (Nat.log2 w.toNat + 1) * 2 ^ (52 - Nat.log2 w.toNat) := by rw [← pow_add]; congr 1; omega
  rw [hlow, hhigh]
  exact ⟨Nat.mul_le_mul_right _ (Nat.log2_self_le (word_toNat_ne_zero hw)),
    Nat.mul_lt_mul_of_pos_right Nat.lt_log2_self (Nat.two_pow_pos _)⟩

theorem quotientMag_lt {w : Word} (hw : w ≠ 0#32) : quotientMag w < 1023 * 2 ^ 52 := by
  have hp := log2_word_le w
  obtain ⟨-, hhigh⟩ := normalised_range hw
  rw [quotientMag]
  omega

/-- The bit-level form is the pattern of that magnitude, its sign bit clear. -/
theorem wordToF64_eq_signMag {w : Word} (hw : w ≠ 0#32) : wordToF64 w = signMag false (quotientMag w) := by
  have hp := log2_word_le w
  have hlt := quotientMag_lt hw
  have hhidden : 2 ^ Nat.log2 w.toNat * 2 ^ (52 - Nat.log2 w.toNat) = 2 ^ 52 := by rw [← pow_add]; congr 1; omega
  have hmag : (991 + Nat.log2 w.toNat) * 2 ^ 52 + (w.toNat - 2 ^ Nat.log2 w.toNat) * 2 ^ (52 - Nat.log2 w.toNat)
      = quotientMag w := by
    obtain ⟨hlow, -⟩ := normalised_range hw
    rw [quotientMag, Nat.sub_mul, hhidden]
    omega
  apply BitVec.eq_of_toNat_eq
  rw [signMag, signMag_toNat false _ (by omega), wordToF64, if_neg hw]
  simp only [hmag, BitVec.toNat_ofNat, Bool.toNat_false]
  omega

theorem magRat_quotientMag {w : Word} (hw : w ≠ 0#32) : magRat (quotientMag w) = (w.toNat : ℚ) / 2 ^ 32 := by
  obtain ⟨hlow, hhigh⟩ := normalised_range hw
  have hshift : (2 : ℚ) ^ (52 - Nat.log2 w.toNat) * 2 ^ Nat.log2 w.toNat = 2 ^ 52 := by
    rw [← pow_add, Nat.sub_add_cancel (by have := log2_word_le w; omega)]
  have hulp : (2 : ℚ) ^ 52 * ulp 990 = 1 / 2 ^ 32 := by
    rw [ulp_eq_zpow]
    norm_num
  rw [quotientMag, magRat_base_add hhigh.le (.inr hlow), ulp_add]
  push_cast
  calc (w.toNat : ℚ) * 2 ^ (52 - Nat.log2 w.toNat) * (2 ^ Nat.log2 w.toNat * ulp 990)
      = w.toNat * (2 ^ (52 - Nat.log2 w.toNat) * 2 ^ Nat.log2 w.toNat * ulp 990) := by ring
    _ = (w.toNat : ℚ) / 2 ^ 32 := by rw [hshift, hulp, mul_one_div]

/-- The binary64 datum of a word is the exact quotient. -/
theorem f64Rat_wordToF64 (w : Word) : f64Rat (wordToF64 w) = some ((w.toNat : ℚ) / 2 ^ 32) := by
  rcases eq_or_ne w 0#32 with rfl | hw
  · simp [f64Rat, wordToF64, f64Read, f64Exp, f64Frac, fvalRat]
  · rw [wordToF64_eq_signMag hw, f64Rat_signMag false ((quotientMag_lt hw).trans (by norm_num [magInf])),
      magRat_quotientMag hw, signRat, if_neg Bool.false_ne_true, one_mul]

theorem wordToF64_msb (w : Word) : (wordToF64 w).msb = false := by
  rcases eq_or_ne w 0#32 with rfl | hw
  · rfl
  · rw [wordToF64_eq_signMag hw]
    exact signMag_msb false _ ((quotientMag_lt hw).trans (by norm_num))

/-- A word over 2^32 is at most `1 - 2^-32` (R253). -/
theorem word_quotient_le (w : Word) : (w.toNat : ℚ) / 2 ^ 32 ≤ 1 - 1 / 2 ^ 32 := by
  have hw : (w.toNat : ℚ) ≤ 2 ^ 32 - 1 := by
    have : ((w.toNat + 1 : Nat) : ℚ) ≤ (2 ^ 32 : Nat) := Nat.cast_le.mpr w.isLt
    push_cast at this
    linarith
  rw [div_le_iff₀ (by norm_num)]
  linarith

/-- PNEXTF on a ready unit: one advance, answered by the binary64 datum of its word. -/
theorem exec_pnextf_of_ready {s : State} {u : PermState} (hu : s.pUnit = some u) :
    exec .pnextf s = .next (respond .pnextf (dwordWords (wordToF64 (pWord u 0))) (setP (pAfter u 1) s)) := by
  simp only [exec, execPnextf, pnextf, hu, advance_fst, advance_snd, pWord_zero, pAfter_one]

/-- Settles O35: the two answer words are the halves of the datum, and the high half holds its sign bit. -/
theorem pnextfReturnsTheExactQuotient : Obligations.PnextfReturnsTheExactQuotient := by
  intro s u hu
  refine ⟨(wordToF64 (pWord u 0)).extractLsb' 32 32, (wordToF64 (pWord u 0)).extractLsb' 0 32, ?answer, ?value, ?sign,
    by positivity, word_quotient_le _⟩
  case answer =>
    rw [exec_pnextf_of_ready hu, respond_eq]
    rfl
  case value => rw [dword_join, f64Rat_wordToF64]
  case sign =>
    have hmsb := wordToF64_msb (pWord u 0)
    rw [BitVec.msb_eq_getLsbD_last] at hmsb ⊢
    rwa [BitVec.getLsbD_extractLsb']

/-! ## PRANGE (R254, R261) -/

/-- PRANGE on a ready unit, with a range that is not empty: one advance, answered by the value made of its word. -/
theorem exec_prange_of_ready {s : State} {u : PermState} {lo hi : Dword} (hu : s.pUnit = some u)
    (hle : lo.toInt ≤ hi.toInt) :
    exec (.prange lo hi) s
      = .next (respond .prange (intWords (rangeValue lo.toInt hi.toInt (pWord u 0))) (setP (pAfter u 1) s)) := by
  simp only [exec, execPrange, prange, hu, if_neg (not_lt.mpr hle), advance_fst, advance_snd, pWord_zero, pAfter_one]

theorem rangeValue_mem {lo hi : Int} (hle : lo ≤ hi) (w : Word) :
    lo ≤ rangeValue lo hi w ∧ rangeValue lo hi w ≤ hi := by
  have hlow := Int.emod_nonneg (w.toNat : Int) (show hi - lo + 1 ≠ 0 by omega)
  have hhigh := Int.emod_lt_of_pos (w.toNat : Int) (show 0 < hi - lo + 1 by omega)
  rw [rangeValue]
  omega

/-- An integer between two operands is in the signed 64-bit range, so its pattern reads back as itself. -/
theorem toInt_tc64_between {a b : Dword} {v : Int} (hlo : a.toInt ≤ v) (hhi : v ≤ b.toInt) : (tc64 v).toInt = v := by
  have ha := a.le_toInt
  have hb := b.toInt_lt
  exact toInt_tc64 (by omega) (by omega)

/-- Settles O36: the value lies between the operands, so its two words stand for it. -/
theorem prangeReturnsAValueInTheInclusiveRange : Obligations.PrangeReturnsAValueInTheInclusiveRange := by
  intro s u lo hi hu hle
  obtain ⟨hlow, hhigh⟩ := rangeValue_mem hle (pWord u 0)
  refine ⟨(tc64 (rangeValue lo.toInt hi.toInt (pWord u 0))).extractLsb' 32 32,
    (tc64 (rangeValue lo.toInt hi.toInt (pWord u 0))).extractLsb' 0 32, ?answer, ?value⟩
  case answer =>
    rw [exec_prange_of_ready hu hle, respond_eq]
    rfl
  case value =>
    rw [dword_join, toInt_tc64_between hlow hhigh]
    exact ⟨rfl, hlow, hhigh⟩

/-! ## PBATCH (R256) -/

/-- PBATCH on a ready unit, with a count that is not negative: that many advances, answered by their words in order. -/
theorem exec_pbatch_of_ready {s : State} {u : PermState} {n : Dword} (hu : s.pUnit = some u) (hn : 0 ≤ n.toInt) :
    exec (.pbatch n) s = .next (respond .pbatch (wordsOf n.toNat (pWord u)) (setP (pAfter u n.toNat) s)) := by
  simp only [exec, execPbatch, pbatch, hu, if_neg (not_lt.mpr hn), countOf_of_nonneg hn, draws_eq]

/-- Settles O37: the answer's header is opcode 0x14 without an error, and the unit's other fields stay. -/
theorem pbatchReturnsTheNextWordsInOrder : Obligations.PbatchReturnsTheNextWordsInOrder := by
  intro s u n hu hn
  rw [exec_pbatch_of_ready hu hn, respond_eq]
  rfl

/-! ## PBATCH against repeated PNEXT32 (R348) -/

/-- The header word 0x11000000 is the whole command PNEXT32. -/
theorem decode_pnext32 (rest : List Word) : decode (0x11000000#32 :: rest) = .command .pnext32 rest :=
  decodeOfEncodeIsTheCommand .pnext32 rest rfl

/-- A run over `n` PNEXT32 header words: `n` advances, and a response of two words for each. -/
theorem run_replicate_pnext32 (n : Nat) {s : State} {u : PermState} (hu : s.pUnit = some u)
    (hcmd : s.cmd = List.replicate n 0x11000000#32) :
    Host.Core.run Sys2Proof.core n s = .next
      { s with
        pUnit := some (pAfter u n)
        cmd := []
        rsp := s.rsp ++ (wordsOf n (pWord u)).flatMap (fun w => [0x11000000#32, w]) } := by
  induction n generalizing s u with
  | zero =>
    rw [pAfter_zero, ← hu]
    exact congrArg _ (State.ext_fields rfl rfl hcmd (List.append_nil _).symm)
  | succ n ih =>
    have hstep : Sys2Proof.core.step s = .next (respond .pnext32 [pWord u 0] (setP (advanceState u)
        (popCommand (List.replicate n 0x11000000#32) s))) := by
      have hd : decode s.cmd = .command .pnext32 (List.replicate n 0x11000000#32) := by
        rw [hcmd, List.replicate_succ, decode_pnext32]
      rw [pWord_zero]
      exact (step_of_command hd).trans (exec_pnext32_of_ready hu)
    have hw : pWord (advanceState u) = fun j => pWord u (j + 1) := funext (pWord_succ u)
    have hheader : rspHeader Opcode.pnext32.byte 0#8 = 0x11000000#32 := by decide
    simp only [Host.Core.run, hstep]
    rw [ih (u := advanceState u) rfl rfl, pAfter_succ, hw, wordsOf_succ, List.flatMap_cons, ← List.append_assoc,
      respond_rsp, hheader]
    rfl

/-- A count below 2^63 fits a count operand and is not negative there. -/
theorem countOperand_of_lt {n : Nat} (h : n < 2 ^ 63) :
    (BitVec.ofNat 64 n).toNat = n ∧ 0 ≤ (BitVec.ofNat 64 n).toInt := by
  have hnat : (BitVec.ofNat 64 n).toNat = n := by rw [BitVec.toNat_ofNat, Nat.mod_eq_of_lt (by omega)]
  refine ⟨hnat, ?_⟩
  rw [BitVec.toInt_eq_toNat_of_lt (by omega)]
  exact Int.natCast_nonneg _

/-- Settles O38: both leave the unit `n` advances on, and the words by index are the same. -/
theorem pbatchIsRepeatedPnext32 : Obligations.PbatchIsRepeatedPnext32 := by
  intro n s u hn hu hcmd
  obtain ⟨hcount, hnonneg⟩ := countOperand_of_lt hn
  have hbatch := exec_pbatch_of_ready hu hnonneg
  have hrun := run_replicate_pnext32 n (s := hostAppend (List.replicate n 0x11000000#32) s) hu
    (by rw [hostAppend_cmd, hcmd, List.nil_append])
  rw [hcount] at hbatch
  exact ⟨_, _, wordsOf n (pWord u), hbatch, hrun, rfl, wordsOf_length n _, rfl, rfl⟩

end Sys2Proof.Machine
end

section
/-! PROOFS. The word-to-binary32 map (R257, R259 of 44_output_distributions.md) and the real-valued Box-Muller formula: the
obligations `WordToFloat32TruncatesTheQuotient` and `BoxMullerClampsTheZeroWordOnly`. -/

namespace Sys2Proof.Machine

/-! ## The datum of a word -/

/-- The word moved until its top bit is bit 23, the bits below bit 0 cut off. -/
def truncSig (w : Word) : Nat := w.toNat * 2 ^ 23 / 2 ^ Nat.log2 w.toNat

/-- The exponent that the moved word counts in, so that the uncut number is `w / 2^32`. -/
def truncExp (w : Word) : Int := (Nat.log2 w.toNat : Int) - 55

/-- The number that the binary32 datum of a word stands for. -/
def truncRat (w : Word) : ℚ := truncSig w * 2 ^ truncExp w

@[simp] theorem truncRat_zero : truncRat 0#32 = 0 := by
  simp [truncRat, truncSig]

theorem truncSig_range {w : Word} (hw : w ≠ 0#32) : 2 ^ 23 ≤ truncSig w ∧ truncSig w < 2 ^ 24 := by
  have hpos := Nat.two_pow_pos (Nat.log2 w.toNat)
  have hlow := Nat.log2_self_le (word_toNat_ne_zero hw)
  have hhigh : w.toNat < 2 ^ (Nat.log2 w.toNat + 1) := Nat.lt_log2_self
  rw [pow_succ] at hhigh
  rw [truncSig, Nat.le_div_iff_mul_le hpos, Nat.div_lt_iff_lt_mul hpos]
  omega

/-- R257's fraction field, in either of its two cases, is the moved word without its top bit. -/
theorem truncSig_mod (w : Word) :
    (if 23 ≤ Nat.log2 w.toNat then (w.toNat / 2 ^ (Nat.log2 w.toNat - 23)) % 2 ^ 23
      else (w.toNat * 2 ^ (23 - Nat.log2 w.toNat)) % 2 ^ 23) = truncSig w % 2 ^ 23 := by
  rw [truncSig]
  split_ifs with hp
  · obtain ⟨k, hk⟩ := Nat.exists_eq_add_of_le' hp
    rw [hk, Nat.add_sub_cancel, pow_add, Nat.mul_div_mul_right _ _ (Nat.two_pow_pos 23)]
  · obtain ⟨k, hk⟩ := Nat.exists_eq_add_of_le (Nat.le_of_not_le hp)
    rw [hk, Nat.add_sub_cancel_left, pow_add, ← mul_assoc, mul_right_comm, Nat.mul_div_cancel _ (Nat.two_pow_pos _)]

/-- The pattern: the exponent field counts the moved word's top bit once, so it is one below R257's `95 + p`. -/
theorem wordToF32_toNat {w : Word} (hw : w ≠ 0#32) :
    (wordToF32 w).toNat = (94 + Nat.log2 w.toNat) * 2 ^ 23 + truncSig w := by
  have hp := log2_word_le w
  obtain ⟨hlow, hhigh⟩ := truncSig_range hw
  rw [wordToF32, if_neg hw]
  simp only [truncSig_mod, BitVec.toNat_ofNat]
  omega

/-- The datum of a word lies below the pattern of 1.0 (R259). -/
theorem f32InUnit_wordToF32 (w : Word) : f32InUnit (wordToF32 w) = true := by
  rw [f32InUnit, decide_eq_true_iff]
  rcases eq_or_ne w 0#32 with rfl | hw
  · decide
  · have hp := log2_word_le w
    obtain ⟨-, hhigh⟩ := truncSig_range hw
    rw [wordToF32_toNat hw]
    omega

theorem wordToF32_msb (w : Word) : (wordToF32 w).msb = false := by
  have hlt := of_decide_eq_true (f32InUnit_wordToF32 w)
  rw [BitVec.msb_eq_decide, decide_eq_false]
  omega

theorem f32Read_wordToF32 {w : Word} (hw : w ≠ 0#32) :
    f32Read (wordToF32 w) = .fin false (truncSig w) (truncExp w) := by
  have hp := log2_word_le w
  obtain ⟨hlow, hhigh⟩ := truncSig_range hw
  have hexp : f32Exp (wordToF32 w) = 95 + Nat.log2 w.toNat := by
    simp only [f32Exp, BitVec.extractLsb'_toNat, Nat.shiftRight_eq_div_pow, wordToF32_toNat hw]
    omega
  have hfrac : 2 ^ 23 + f32Frac (wordToF32 w) = truncSig w := by
    simp only [f32Frac, BitVec.extractLsb'_toNat, Nat.shiftRight_zero, wordToF32_toNat hw]
    omega
  have hunit : ((95 + Nat.log2 w.toNat : Nat) : Int) - 150 = truncExp w := by
    rw [truncExp]
    omega
  rw [f32Read, hexp, if_neg (by omega), if_neg (by omega), hfrac, hunit, wordToF32_msb]

theorem f32Rat_wordToF32 (w : Word) : f32Rat (wordToF32 w) = some (truncRat w) := by
  rcases eq_or_ne w 0#32 with rfl | hw
  · simp [f32Rat, wordToF32, f32Read, f32Exp, f32Frac, fvalRat]
  · rw [f32Rat, f32Read_wordToF32 hw, fvalRat, if_neg Bool.false_ne_true, one_mul, truncRat]

/-! ## Its bounds (R259) -/

theorem truncRat_nonneg (w : Word) : 0 ≤ truncRat w := by
  unfold truncRat
  positivity

/-- The quotient is the moved word before the cut. -/
theorem word_quotient_eq (w : Word) :
    (w.toNat : ℚ) / 2 ^ 32 = (w.toNat * 2 ^ 23 : Nat) / (2 ^ Nat.log2 w.toNat : Nat) * 2 ^ truncExp w := by
  have hpow : (2 : ℚ) ^ truncExp w = 2 ^ Nat.log2 w.toNat / 2 ^ 55 := by
    rw [truncExp, zpow_sub₀ two_ne_zero, zpow_natCast]
    norm_num
  rw [hpow]
  push_cast
  field_simp
  ring

/-- The cut loses less than one unit. -/
theorem quotient_between (w : Word) :
    truncRat w ≤ (w.toNat : ℚ) / 2 ^ 32 ∧ (w.toNat : ℚ) / 2 ^ 32 < (truncSig w + 1) * 2 ^ truncExp w := by
  have hpos : (0 : ℚ) < 2 ^ truncExp w := by positivity
  rw [word_quotient_eq, truncRat]
  exact ⟨mul_le_mul_of_nonneg_right Nat.cast_div_le hpos.le,
    mul_lt_mul_of_pos_right (Nat.lt_floor_add_one _ |>.trans_eq (by rw [Nat.floor_div_eq_div, truncSig])) hpos⟩

theorem truncRat_le_one_sub (w : Word) : truncRat w ≤ 1 - 1 / 2 ^ 24 := by
  rcases eq_or_ne w 0#32 with rfl | hw
  · norm_num
  · have hsig : (truncSig w : ℚ) ≤ 2 ^ 24 - 1 := by
      have : ((truncSig w + 1 : Nat) : ℚ) ≤ (2 ^ 24 : Nat) := Nat.cast_le.mpr (truncSig_range hw).2
      push_cast at this
      linarith
    have hexp : (2 : ℚ) ^ truncExp w ≤ 2 ^ (-24 : Int) := by
      refine zpow_le_zpow_right₀ one_le_two ?_
      have := log2_word_le w
      rw [truncExp]
      omega
    calc truncRat w ≤ (2 ^ 24 - 1) * 2 ^ (-24 : Int) := mul_le_mul hsig hexp (by positivity) (by norm_num)
      _ = 1 - 1 / 2 ^ 24 := by norm_num

/-- A word that is not 0 gives at least `2^-32`. -/
theorem le_truncRat {w : Word} (hw : w ≠ 0#32) : 1 / 2 ^ 32 ≤ truncRat w := by
  have hsig : (2 ^ 23 : ℚ) ≤ truncSig w := by exact_mod_cast (truncSig_range hw).1
  have hexp : (2 : ℚ) ^ (-55 : Int) ≤ 2 ^ truncExp w := by
    refine zpow_le_zpow_right₀ one_le_two ?_
    rw [truncExp]
    omega
  calc (1 / 2 ^ 32 : ℚ) = 2 ^ 23 * 2 ^ (-55 : Int) := by norm_num
    _ ≤ truncRat w := mul_le_mul hsig hexp (by positivity) (by positivity)

/-! ## No datum lies between it and the quotient (R257) -/

/-- A finite datum has a significand below `2^24`. -/
theorem f32Rat_eq_some {y : F32} {x : ℚ} (h : f32Rat y = some x) :
    ∃ (neg : Bool) (m : Nat) (e : Int), m < 2 ^ 24 ∧ x = signRat neg * (m * 2 ^ e) := by
  have hfrac : f32Frac y < 2 ^ 23 := (y.extractLsb' 0 23).isLt
  simp only [f32Rat, f32Read] at h
  split_ifs at h
  · cases h
  · cases h
  · refine ⟨y.msb, f32Frac y, -149, by omega, ?_⟩
    rw [← mul_assoc]
    exact (Option.some.inj h).symm
  · refine ⟨y.msb, 2 ^ 23 + f32Frac y, (f32Exp y : Int) - 150, by omega, ?_⟩
    rw [← mul_assoc]
    exact (Option.some.inj h).symm

/-- Among the numbers `m * 2^e` with `m` below `2^24`, the largest up to `x` is the one of full length cut from `x`: one of
a smaller unit is below its binade, and any other is a whole number of its units. -/
theorem le_of_cut {sig m : Nat} {q e : Int} {x : ℚ} (hsig : 2 ^ 23 ≤ sig) (hcut : x < (sig + 1) * 2 ^ q)
    (hm : m < 2 ^ 24) (hx : (m * 2 ^ e : ℚ) ≤ x) : (m * 2 ^ e : ℚ) ≤ sig * 2 ^ q := by
  have hunit : (0 : ℚ) < 2 ^ q := by positivity
  rcases lt_or_ge e q with he | he
  · calc (m * 2 ^ e : ℚ) ≤ 2 ^ 24 * 2 ^ (q - 1) := by
          refine mul_le_mul (by exact_mod_cast hm.le) (zpow_le_zpow_right₀ one_le_two (by omega)) ?_ ?_ <;> positivity
      _ = 2 ^ 23 * 2 ^ q := by
          rw [zpow_sub_one₀ two_ne_zero]
          ring
      _ ≤ sig * 2 ^ q := mul_le_mul_of_nonneg_right (by exact_mod_cast hsig) hunit.le
  · have hwhole : (m * 2 ^ e : ℚ) = (m * 2 ^ (e - q).toNat : Nat) * 2 ^ q := by
      push_cast
      rw [mul_assoc, two_pow_sub_mul_zpow he]
    rw [hwhole] at hx ⊢
    have hlt := lt_of_mul_lt_mul_right (hx.trans_lt hcut) hunit.le
    exact mul_le_mul_of_nonneg_right (by exact_mod_cast Nat.le_of_lt_succ (by exact_mod_cast hlt)) hunit.le

/-- A datum not above the quotient is not above the datum of the word. -/
theorem le_truncRat_of_le_quotient {w : Word} {y : F32} {x : ℚ} (hy : f32Rat y = some x)
    (hx : x ≤ (w.toNat : ℚ) / 2 ^ 32) : x ≤ truncRat w := by
  obtain ⟨neg, m, e, hm, rfl⟩ := f32Rat_eq_some hy
  rcases eq_or_ne w 0#32 with rfl | hw
  · simpa using hx
  cases neg with
  | true =>
    have hneg : signRat true * (m * 2 ^ e) ≤ 0 := by
      rw [signRat, if_pos rfl, neg_one_mul, neg_nonpos]
      positivity
    exact hneg.trans (truncRat_nonneg w)
  | false =>
    rw [signRat, if_neg Bool.false_ne_true, one_mul] at hx ⊢
    exact le_of_cut (truncSig_range hw).1 (quotient_between w).2 hm hx

/-- Settles O48: the datum is the quotient cut to 24 bits. -/
theorem wordToFloat32TruncatesTheQuotient : Obligations.WordToFloat32TruncatesTheQuotient :=
  fun w => ⟨truncRat w, f32Rat_wordToF32 w, truncRat_nonneg w, (quotient_between w).1, truncRat_le_one_sub w,
    fun _ _ hy hx => le_truncRat_of_le_quotient hy hx⟩

/-! ## The Box-Muller formula (R263) -/

theorem u1Min_real : (u1Min : ℝ) = 1 / 1000000000000 := by
  norm_num [u1Min]

/-- The clamp keeps the logarithm from going below `ln(10^-12)`, and a cosine is at most 1 in magnitude. -/
theorem abs_le_of_isBmReal {u1 u2 y : ℝ} (h : IsBmReal u1 u2 y) :
    |y| ≤ Real.sqrt (-2 * Real.log (1 / 1000000000000)) := by
  have hlog : Real.log (1 / 1000000000000) ≤ Real.log (max u1 (u1Min : ℝ)) := by
    rw [← u1Min_real]
    refine Real.log_le_log ?_ (le_max_right _ _)
    rw [u1Min_real]
    norm_num
  rw [h, abs_mul, abs_of_nonneg (Real.sqrt_nonneg _)]
  calc Real.sqrt (-2 * Real.log (max u1 (u1Min : ℝ))) * |Real.cos (2 * Real.pi * u2)|
      ≤ Real.sqrt (-2 * Real.log (max u1 (u1Min : ℝ))) :=
        mul_le_of_le_one_right (Real.sqrt_nonneg _) (Real.abs_cos_le_one _)
    _ ≤ Real.sqrt (-2 * Real.log (1 / 1000000000000)) := Real.sqrt_le_sqrt (by linarith)

theorem isBmReal_zero_zero : IsBmReal 0 0 (Real.sqrt (-2 * Real.log (1 / 1000000000000))) := by
  have hclamp : max 0 (u1Min : ℝ) = 1 / 1000000000000 := by
    rw [u1Min_real]
    exact max_eq_right (by norm_num)
  rw [IsBmReal, hclamp, mul_zero, Real.cos_zero, mul_one]

/-- Settles O60: the word 0 gives 0, below the clamp, and every other word at least `2^-32`, above it. -/
theorem boxMullerClampsTheZeroWordOnly : Obligations.BoxMullerClampsTheZeroWordOnly := by
  refine ⟨fun w => ⟨truncRat w, f32Rat_wordToF32 w, ?zero, ?other⟩, by norm_num [u1Min],
    fun _ _ _ _ _ h => abs_le_of_isBmReal h, isBmReal_zero_zero⟩
  case zero =>
    rintro rfl
    norm_num [u1Min]
  case other =>
    intro hw
    have hclamp : u1Min < 1 / 2 ^ 32 := by norm_num [u1Min]
    exact hclamp.trans_le (le_truncRat hw)

end Sys2Proof.Machine
end

section
/-! PROOFS. The output layer of the C-unit (44_output_distributions.md): the obligations `CunifReturnsTruncatedUniforms`,
`CrandiReturnsValuesInTheHalfOpenRange`, `CrandnPairsTwoRequests` and `NumFiniteMakesNormalsFinite`. Each command is one or
two requests, whose words `request_eq` gives by index, and a map over those words. -/

namespace Sys2Proof.Machine

/-! ## CUNIF (R258, R259) -/

/-- CUNIF on a ready unit, with a count that is not negative: one request, its words truncated. -/
theorem exec_cunif_of_ready {s : State} {u : CtrState} {n : Dword} (hu : s.cUnit = some u) (hn : 0 ≤ n.toInt) :
    exec (.cunif n) s = .next (respond .cunif (wordsOf n.toNat (fun j => wordToF32 (cWord u j)))
      (setC (cAfter u (blockCount n.toNat)) s)) := by
  simp only [exec, execCunif, cunif, hu, if_neg (not_lt.mpr hn), countOf_of_nonneg hn, request_eq, wordsOf_map]

/-- Settles O49: the bounds hold of the datum of any word. -/
theorem cunifReturnsTruncatedUniforms : Obligations.CunifReturnsTruncatedUniforms := by
  intro s u n hu hn
  refine ⟨?answer, fun j => ⟨truncRat (cWord u j), f32Rat_wordToF32 _, truncRat_nonneg _, truncRat_le_one_sub _, ?least,
    wordToF32_msb _⟩⟩
  case answer =>
    rw [exec_cunif_of_ready hu hn, respond_eq]
    rfl
  case least =>
    rcases eq_or_ne (cWord u j) 0#32 with h0 | h0
    · exact .inl (by rw [h0, truncRat_zero])
    · exact .inr (le_truncRat h0)

/-! ## CRANDI (R260, R261) -/

/-- CRANDI on a ready unit, with a range that is not empty and a count that is not negative: one request, an integer made of
each of its words. -/
theorem exec_crandi_of_ready {s : State} {u : CtrState} {low high n : Dword} (hu : s.cUnit = some u)
    (hlt : low.toInt < high.toInt) (hn : 0 ≤ n.toInt) :
    exec (.crandi low high n) s = .next (respond .crandi
      ((wordsOf n.toNat (cWord u)).flatMap (fun w => intWords (randiValue low.toInt high.toInt w)))
      (setC (cAfter u (blockCount n.toNat)) s)) := by
  simp only [exec, execCrandi, crandi, hu, if_neg (not_le.mpr hlt), if_neg (not_lt.mpr hn), countOf_of_nonneg hn,
    request_eq]

theorem randiValue_mem {low high : Int} (hlt : low < high) (w : Word) :
    low ≤ randiValue low high w ∧ randiValue low high w < high := by
  have hlow := Int.emod_nonneg (w.toNat : Int) (show high - low ≠ 0 by omega)
  have hhigh := Int.emod_lt_of_pos (w.toNat : Int) (show 0 < high - low by omega)
  rw [randiValue]
  omega

/-- Settles O50: each element lies between the operands, so its two words stand for it. -/
theorem crandiReturnsValuesInTheHalfOpenRange : Obligations.CrandiReturnsValuesInTheHalfOpenRange := by
  intro s u low high n hu hlt hn
  refine ⟨fun j => tc64 (randiValue low.toInt high.toInt (cWord u j)), ?answer, fun j => ?element⟩
  case answer =>
    rw [exec_crandi_of_ready hu hlt hn, respond_eq,
      ← wordsOf_map (fun w => tc64 (randiValue low.toInt high.toInt w)), List.flatMap_map]
    rfl
  case element =>
    obtain ⟨hlow, hhigh⟩ := randiValue_mem hlt (cWord u j)
    rw [toInt_tc64_between hlow hhigh.le]
    exact ⟨rfl, hlow, hhigh⟩

/-! ## CRANDN (R262, R263) -/

theorem zipWith_wordsOf {α β γ : Type} (g : α → β → γ) (n : Nat) (a : Nat → α) (b : Nat → β) :
    List.zipWith g (wordsOf n a) (wordsOf n b) = wordsOf n (fun j => g (a j) (b j)) := by
  simp only [wordsOf, List.zipWith_map, List.zipWith_self]

/-- Element `j` of a CRANDN of which one request takes `q` blocks (R262). -/
def normalAt (cfg : Cfg) (u : CtrState) (q j : Nat) : F32 :=
  cfg.bm32 (wordToF32 (cWord u j)) (wordToF32 (cWord (cAfter u q) j))

/-- CRANDN on a ready unit, with a count that is not negative: two requests, paired word by word. -/
theorem crandnWith_of_ready (cfg : Cfg) {s : State} {u : CtrState} {n : Dword} (hu : s.cUnit = some u)
    (hn : 0 ≤ n.toInt) :
    crandnWith cfg n s = respond .crandn (wordsOf n.toNat (normalAt cfg u (blockCount n.toNat)))
      (setC (cAfter u (2 * blockCount n.toNat)) s) := by
  simp only [crandnWith, hu, if_neg (not_lt.mpr hn), countOf_of_nonneg hn, request_eq, normals, zipWith_wordsOf,
    cAfter_add, ← two_mul]
  rfl

/-- Settles O51: the engine's CRANDN is the one of its own configuration. -/
theorem crandnPairsTwoRequests : Obligations.CrandnPairsTwoRequests := by
  intro s u n hu hn
  have hexec : exec (.crandn n) s = .next (crandnWith Config.CFG n s) := rfl
  rw [hexec, crandnWith_of_ready _ hu hn, respond_eq]
  rfl

/-- Both arguments of `NUM.bm32` are data of words, which lie in [0,1). -/
theorem f32Finite_normalAt {cfg : Cfg} (h : NumFinite cfg) (u : CtrState) (q j : Nat) :
    f32Finite (normalAt cfg u q j) = true :=
  h _ _ (f32InUnit_wordToF32 _) (f32InUnit_wordToF32 _)

/-- Settles O52: every element is one `NUM.bm32` on arguments in [0,1). -/
theorem numFiniteMakesNormalsFinite : Obligations.NumFiniteMakesNormalsFinite := by
  intro cfg s u n hfin hu hn
  refine ⟨wordsOf n.toNat (normalAt cfg u (blockCount n.toNat)), ?answer, wordsOf_length _ _, ?finite⟩
  case answer =>
    rw [crandnWith_of_ready cfg hu hn]
    rfl
  case finite =>
    intro y hy
    obtain ⟨j, -, rfl⟩ := List.mem_map.mp hy
    exact f32Finite_normalAt hfin u _ j

end Sys2Proof.Machine
end

section
/-! PROOFS. Errors (60_exceptions.md): the obligations `DrawsOnAnUnconstructedUnitAreNotReady`, `EmptyRangesAreDomainErrors`
and `NegativeCountsAreValidationErrors`. The error that a command raises on a state is a function of both; `exec` is tied
to it once, for all twelve commands, and each obligation reads it off. -/

namespace Sys2Proof.Machine

/-! ## The error that a command raises (R301 to R304) -/

/-- A draw command looks at its unit before anything else (R304, R308). -/
def readyFirst {α : Type} (unit : Option α) (check : Option ErrCode) : Option ErrCode :=
  if unit = none then some .notReady else check

/-- The check of a count operand (R303). -/
def countCheck (n : Dword) : Option ErrCode := if n.toInt < 0 then some .validationError else none

/-- The error that a command raises on a state, if any; its checks in the order of R308. -/
def raisedError (i : Instr) (s : State) : Option ErrCode :=
  match i with
  | .pinit _ rounds zetas _ =>
    if orDefault pRoundsDefault rounds = 0#32 then some .validationError
    else if schedFinite Config.CFG (orDefault zetasDefault zetas) = false then some .validationError
    else none
  | .cinit seed rounds _ =>
    if seedFits64 (orDefault cSeedDefault seed).toInt = false then some .encodingError
    else if orDefault cRoundsDefault rounds = 0#32 then some .validationError
    else none
  | .pdrop | .cdrop => none
  | .pnext32 | .pnextf => readyFirst s.pUnit none
  | .prange lo hi => readyFirst s.pUnit (if hi.toInt < lo.toInt then some .domainError else none)
  | .pbatch n => readyFirst s.pUnit (countCheck n)
  | .cwords n | .cunif n | .crandn n => readyFirst s.cUnit (countCheck n)
  | .crandi low high n =>
    readyFirst s.cUnit (if high.toInt ≤ low.toInt then some .domainError else countCheck n)

section
variable {α : Type} {unit : Option α} {check : Option ErrCode} {n : Dword}

theorem readyFirst_of_none (h : unit = none) : readyFirst unit check = some .notReady := if_pos h

theorem readyFirst_of_ready (h : unit ≠ none) : readyFirst unit check = check := if_neg h

theorem readyFirst_eq_some_iff {e : ErrCode} (he : e ≠ .notReady) :
    readyFirst unit check = some e ↔ unit ≠ none ∧ check = some e := by
  unfold readyFirst
  split_ifs with h <;> simp [h, he.symm]

theorem countCheck_of_neg (h : n.toInt < 0) : countCheck n = some .validationError := if_pos h

theorem countCheck_ne_domainError (n : Dword) : countCheck n ≠ some .domainError := by
  unfold countCheck
  split_ifs <;> simp

end

/-! ## Error words (R120, R300) -/

/-- The ERR field of a response header is read back from it. -/
theorem rspHeader_err_injective (opc : Byte) : Function.Injective (rspHeader opc) := by
  intro err err' h
  have hopc := opc.isLt
  have herr := err.isLt
  have herr' := err'.isLt
  apply BitVec.eq_of_toNat_eq
  simp only [rspHeader_eq_errorWord, errorWord, ← BitVec.toNat_inj, BitVec.toNat_ofNat] at h
  omega

theorem ErrCode.code_injective : Function.Injective ErrCode.code := by
  intro e e'
  cases e <;> cases e' <;> decide

/-! ## Every command answers the error that it raises, and no other -/

/-- On `s`, command `o` answers the error `r` by error entry (R306), or, with no error, appends one response with ERR 0; `t`
is the state it leaves. -/
inductive AnswersWith (o : Opcode) (s : State) : Option ErrCode → State → Prop
  | failed (e : ErrCode) : AnswersWith o s (some e) (fail o e s)
  | responded (ws : List Word) {s' : State} (h : s'.rsp = s.rsp) : AnswersWith o s none (respond o ws s')

section
variable {o : Opcode} {s t : State} {r : Option ErrCode}

/-- One check in a command's meaning: its error, or what comes after it. -/
theorem AnswersWith.check {c : Prop} [Decidable c] (e : ErrCode) (h : AnswersWith o s r t) :
    AnswersWith o s (if c then some e else r) (if c then fail o e s else t) := by
  split_ifs
  · exact .failed e
  · exact h

/-- The response tells which error was raised, if any. -/
theorem AnswersWith.rsp_eq_fail_iff (h : AnswersWith o s r t) (e : ErrCode) :
    t.rsp = (fail o e s).rsp ↔ r = some e := by
  cases h with
  | failed e' =>
    rw [fail_rsp, fail_rsp, List.append_cancel_left_eq, List.singleton_inj, (rspHeader_err_injective _).eq_iff,
      ErrCode.code_injective.eq_iff, Option.some_inj]
  | responded ws hs =>
    have hcode : 0#8 ≠ e.code := by cases e <;> decide
    simp [hs, (rspHeader_err_injective _).eq_iff, hcode]

end

/-- Each command's meaning makes the checks of `raisedError`, in that order (R308). -/
theorem exec_answersWith (i : Instr) (s : State) :
    ∃ t, exec i s = .next t ∧ AnswersWith i.opcode s (raisedError i s) t := by
  obtain ⟨p, c, cmd, rsp⟩ := s
  cases i with
  | pinit seed rounds zetas tag => exact ⟨_, rfl, .check _ (.check _ (.responded _ rfl))⟩
  | pdrop => exact ⟨_, rfl, .responded _ rfl⟩
  | cinit seed rounds tag => exact ⟨_, rfl, .check _ (.check _ (.responded _ rfl))⟩
  | cdrop => exact ⟨_, rfl, .responded _ rfl⟩
  | pnext32 | pnextf =>
    cases p with
    | none => exact ⟨_, rfl, .failed _⟩
    | some u => exact ⟨_, rfl, .responded _ rfl⟩
  | prange | pbatch =>
    cases p with
    | none => exact ⟨_, rfl, .failed _⟩
    | some u => exact ⟨_, rfl, .check _ (.responded _ rfl)⟩
  | cwords | cunif | crandn =>
    cases c with
    | none => exact ⟨_, rfl, .failed _⟩
    | some u => exact ⟨_, rfl, .check _ (.responded _ rfl)⟩
  | crandi low high n =>
    cases c with
    | none => exact ⟨_, rfl, .failed _⟩
    | some u => exact ⟨_, rfl, .check _ (.check _ (.responded _ rfl))⟩

section
variable {i : Instr} {s t : State} {e : ErrCode}

theorem exec_rsp_eq_fail_iff (h : exec i s = .next t) :
    t.rsp = (fail i.opcode e s).rsp ↔ raisedError i s = some e := by
  obtain ⟨t', hexec, hans⟩ := exec_answersWith i s
  cases h.symm.trans hexec
  exact hans.rsp_eq_fail_iff e

/-- A command ends in error entry exactly with the error that it raises (R306). -/
theorem exec_eq_fail_iff : exec i s = .next (fail i.opcode e s) ↔ raisedError i s = some e := by
  refine ⟨fun h => (exec_rsp_eq_fail_iff h).mp rfl, fun h => ?_⟩
  obtain ⟨t, hexec, hans⟩ := exec_answersWith i s
  rw [h] at hans
  cases hans
  exact hexec

theorem exec_eq_fail (o : Opcode) (e : ErrCode) (ho : i.opcode = o) (h : raisedError i s = some e) :
    exec i s = .next (fail o e s) :=
  ho ▸ exec_eq_fail_iff.mpr h

end

/-! ## NotReady (R304) -/

/-- INIT and DROP do not look at whether their unit is there. -/
theorem raisedError_init_drop_ne_notReady {i : Instr} (hi : i.opcode ∈ [.pinit, .pdrop, .cinit, .cdrop]) (s : State) :
    raisedError i s ≠ some .notReady := by
  cases i with
  | pinit | cinit =>
    simp only [raisedError]
    split_ifs <;> simp
  | pdrop | cdrop => simp [raisedError]
  | pnext32 | pnextf | prange | pbatch | cwords | cunif | crandi | crandn => exact absurd hi (by simp [Instr.opcode])

/-- Settles O53: a draw looks at its unit first, and neither INIT nor DROP has that check. -/
theorem drawsOnAnUnconstructedUnitAreNotReady : Obligations.DrawsOnAnUnconstructedUnitAreNotReady := by
  intro s a b c
  refine ⟨fun hp => ⟨?pnext32, ?pnextf, ?prange, ?pbatch⟩, fun hc => ⟨?cwords, ?cunif, ?crandi, ?crandn⟩,
    fun i t hi hexec => ?initDrop⟩
  case pnext32 => exact exec_eq_fail .pnext32 .notReady rfl (readyFirst_of_none hp)
  case pnextf => exact exec_eq_fail .pnextf .notReady rfl (readyFirst_of_none hp)
  case prange => exact exec_eq_fail .prange .notReady rfl (readyFirst_of_none hp)
  case pbatch => exact exec_eq_fail .pbatch .notReady rfl (readyFirst_of_none hp)
  case cwords => exact exec_eq_fail .cwords .notReady rfl (readyFirst_of_none hc)
  case cunif => exact exec_eq_fail .cunif .notReady rfl (readyFirst_of_none hc)
  case crandi => exact exec_eq_fail .crandi .notReady rfl (readyFirst_of_none hc)
  case crandn => exact exec_eq_fail .crandn .notReady rfl (readyFirst_of_none hc)
  case initDrop =>
    rw [show (4 : Nat) = ErrCode.notReady.code.toNat from rfl, ← rspHeader_eq_errorWord, ← fail_rsp]
    exact fun hrsp => raisedError_init_drop_ne_notReady hi s ((exec_rsp_eq_fail_iff hexec).mp hrsp)

/-! ## DomainError (R302) -/

/-- PRANGE refuses the ranges with no integer in them: `hi = lo` has one. -/
theorem raisedError_prange_eq_domainError_iff {lo hi : Dword} {s : State} :
    raisedError (.prange lo hi) s = some .domainError ↔ s.pUnit ≠ none ∧ hi.toInt < lo.toInt := by
  simp [raisedError, readyFirst_eq_some_iff]

/-- CRANDI refuses its empty half-open ranges before it looks at the count. -/
theorem raisedError_crandi_eq_domainError_iff {low high n : Dword} {s : State} :
    raisedError (.crandi low high n) s = some .domainError ↔ s.cUnit ≠ none ∧ high.toInt ≤ low.toInt := by
  simp [raisedError, readyFirst_eq_some_iff, countCheck_ne_domainError]

/-- Settles O54: each command answers DomainError exactly when it raises it. -/
theorem emptyRangesAreDomainErrors : Obligations.EmptyRangesAreDomainErrors := by
  intro s lo hi n
  have hprange : exec (.prange lo hi) s = .next (fail .prange .domainError s)
      ↔ s.pUnit ≠ none ∧ hi.toInt < lo.toInt := exec_eq_fail_iff.trans raisedError_prange_eq_domainError_iff
  have hcrandi : exec (.crandi lo hi n) s = .next (fail .crandi .domainError s)
      ↔ s.cUnit ≠ none ∧ hi.toInt ≤ lo.toInt := exec_eq_fail_iff.trans raisedError_crandi_eq_domainError_iff
  exact ⟨fun hs hlt => hprange.mpr ⟨hs, hlt⟩, fun hs hle => hcrandi.mpr ⟨hs, hle⟩,
    fun hle h => not_lt.mpr hle (hprange.mp h).2, fun hlt h => not_le.mpr hlt (hcrandi.mp h).2⟩

/-! ## ValidationError of a count (R303) -/

/-- Settles O55: on a ready unit, and behind a range that is not empty, the count's check decides. -/
theorem negativeCountsAreValidationErrors : Obligations.NegativeCountsAreValidationErrors := by
  intro s low high n hn
  have hcount {α : Type} {unit : Option α} (hu : unit ≠ none) :
      readyFirst unit (countCheck n) = some .validationError := by
    rw [readyFirst_of_ready hu, countCheck_of_neg hn]
  refine ⟨fun hp => ?pbatch, fun hc => ⟨?cwords, ?cunif, ?crandn, fun hlt => ?crandi⟩⟩
  case pbatch => exact exec_eq_fail .pbatch .validationError rfl (hcount hp)
  case cwords => exact exec_eq_fail .cwords .validationError rfl (hcount hc)
  case cunif => exact exec_eq_fail .cunif .validationError rfl (hcount hc)
  case crandn => exact exec_eq_fail .crandn .validationError rfl (hcount hc)
  case crandi =>
    refine exec_eq_fail .crandi .validationError rfl ?_
    rw [raisedError, if_neg (not_le.mpr hlt), hcount hc]

end Sys2Proof.Machine
end

section
/-! PROOFS. Pacing of the command words and two seeds with one hash input (R352, R353 of 70_reset_and_hazards.md): the
obligations `PacingOfCommandWordsDoesNotMatter` and `NumeralAndTagCanAlias`. That words appended later do not disturb a step
is said once; runs follow by induction. -/

namespace Sys2Proof.Machine

/-! ## Words that arrive later (R352) -/

/-- A step neither reads nor loses the words behind its command. -/
theorem step_hostAppend {s t : State} (ws : List Word) (hstep : step s = .next t) :
    step (hostAppend ws s) = .next (hostAppend ws t) := by
  have hmore (hd : decode s.cmd ≠ .incomplete) : decode (hostAppend ws s).cmd = (decode s.cmd).andThen ws :=
    decode_append ws hd
  cases hd : decode s.cmd with
  | incomplete =>
    rw [step_of_incomplete hd] at hstep
    cases hstep
  | illegal opc why rest =>
    rw [step_of_illegal hd] at hstep
    cases hstep
    exact step_of_illegal ((hmore (by simp [hd])).trans (congrArg _ hd))
  | command i rest =>
    rw [step_of_command hd] at hstep
    obtain ⟨p, c, answer, hexec⟩ := exec_withStreams i s
    cases hstep.symm.trans (hexec rest s.rsp)
    exact (step_of_command ((hmore (by simp [hd])).trans (congrArg _ hd))).trans (hexec (rest ++ ws) s.rsp)

/-- A run that goes on for another step begins with a step that goes on. -/
theorem run_succ_eq_next_iff {k : Nat} {s t : State} :
    Host.Core.run Sys2Proof.core (k + 1) s = .next t
      ↔ ∃ s', step s = .next s' ∧ Host.Core.run Sys2Proof.core k s' = .next t := by
  simp only [Host.Core.run, Host.Check.core_step]
  cases step s <;> simp

/-- A run is the same with words behind `CMD` that it does not reach. -/
theorem run_hostAppend {k : Nat} {s t : State} (ws : List Word) (hrun : Host.Core.run Sys2Proof.core k s = .next t) :
    Host.Core.run Sys2Proof.core k (hostAppend ws s) = .next (hostAppend ws t) := by
  induction k generalizing s with
  | zero =>
    cases hrun
    rfl
  | succ k ih =>
    obtain ⟨s', hstep, hrest⟩ := run_succ_eq_next_iff.mp hrun
    exact run_succ_eq_next_iff.mpr ⟨_, step_hostAppend ws hstep, ih hrest⟩

/-- Two runs, the second from where the first ends, are one run. -/
theorem run_add {m n : Nat} {s t u : State} (hm : Host.Core.run Sys2Proof.core m s = .next t)
    (hn : Host.Core.run Sys2Proof.core n t = .next u) : Host.Core.run Sys2Proof.core (m + n) s = .next u := by
  induction m generalizing s with
  | zero =>
    cases hm
    rwa [Nat.zero_add]
  | succ m ih =>
    obtain ⟨s', hstep, hrest⟩ := run_succ_eq_next_iff.mp hm
    rw [Nat.add_right_comm]
    exact run_succ_eq_next_iff.mpr ⟨s', hstep, ih hrest⟩

theorem hostAppend_append (a b : List Word) (s : State) : hostAppend (a ++ b) s = hostAppend b (hostAppend a s) :=
  State.ext_fields rfl rfl (List.append_assoc _ _ _).symm rfl

/-- Settles O12: the first run is the same with the second part already behind it, and the second goes on from there. -/
theorem pacingOfCommandWordsDoesNotMatter : Obligations.PacingOfCommandWordsDoesNotMatter := by
  intro m n a b s t u hm hn
  rw [hostAppend_append]
  exact run_add (run_hostAppend b hm) hn

/-! ## Seeds and tags with one hash input (R353) -/

/-- Fuel above the number does not change its digits. -/
theorem decDigits_eq_of_lt {f g n : Nat} (hf : n < f) (hg : n < g) : decDigits f n = decDigits g n := by
  induction f generalizing g n with
  | zero => omega
  | succ f ih =>
    obtain ⟨g, rfl⟩ := Nat.exists_eq_add_of_lt (Nat.zero_lt_of_lt hg)
    rw [Nat.zero_add] at hg ⊢
    rcases lt_or_ge n 10 with hn | hn
    · rw [decDigits_of_lt hn, decDigits_of_lt hn]
    · rw [decDigits_of_ge hn, decDigits_of_ge hn, ih (g := g) (by omega) (by omega)]

/-- A digit written behind a positive number's numeral gives the numeral of ten times the number plus the digit. -/
theorem decNumeral_append_digit {n d : Nat} (hn : 0 < n) (hd : d < 10) :
    decNumeral (10 * n + d : Nat) = decNumeral n ++ [digitByte d] := by
  rw [decNumeral_natCast, decNumeral_natCast, decDigits_of_ge (by omega), show (10 * n + d) / 10 = n by omega,
    show (10 * n + d) % 10 = d by omega, decDigits_eq_of_lt (by omega) n.lt_succ_self]

/-- A tag that begins with a digit aliases: nothing separates the numeral from the tag (R142). -/
theorem hashInput_digit_cons {n d : Nat} (hn : 0 < n) (hd : d < 10) (tag : List Byte) :
    hashInput n (digitByte d :: tag) = hashInput (10 * n + d : Nat) tag := by
  rw [hashInput, hashInput, decNumeral_append_digit hn hd, List.append_assoc, List.singleton_append]

/-- Settles O25: 0x32 is the digit 2, and 12 is 1 with 2 written behind it. -/
theorem numeralAndTagCanAlias : Obligations.NumeralAndTagCanAlias :=
  hashInput_digit_cons (n := 1) (d := 2) Nat.one_pos (by decide) [0x78#8]

end Sys2Proof.Machine
end
